-- ==== Sys2Proof/Word.lean ====
section
/-! DEFINITION. The words of the command interface (R11, R38): bytes, header words, operand and result words.
An operand or result word is an unsigned integer of FW bits; FW is a parameter of the configuration, so a word
is carried as a natural number and its width is checked where the spec checks it. An element of F = GF(P) is likewise its
canonical representative, a natural number in [0, P) (R10). -/

namespace Sys2Proof

/-- One byte of a byte-wide transport (R39). -/
abbrev Byte := BitVec 8

/-- A command header, a response header or a STATUS word (R49, R58, R60). -/
abbrev Header := BitVec 32

/-- The number of bits in the binary form of n, with bitlen 0 = 0 (R7). -/
def bitlen (n : Nat) : Nat := if n = 0 then 0 else Nat.log2 n + 1

end Sys2Proof
end

