-- ==== Sys2Proof/Config.lean ====
section
/-! DEFINITION. The static configuration record CFG (R7, R25): what is fixed when the core is built. No command
writes any field of it. The toy parameter sets are the spec's own (95_test_vectors.md part 2). The one free value
of the model stands here too. -/

namespace Sys2Proof

/-- Byte order of a word on a byte-wide transport (R39, D4). -/
inductive ByteOrder where
  | le
  | be
  deriving DecidableEq, Repr

/-- The S-box lane map SBOX : F -> F (R7, R65, D26), as data: the default power map with exponent ALPHA, or
any other map given by its table of P values (`table xs` sends x to the x-th entry). Every map F -> F is a table, so
the two forms leave out no S-box the spec allows. -/
inductive Sbox where
  | power (alpha : Nat)
  | table (values : List Nat)
  deriving DecidableEq, Repr

/-- CFG, field by field as R7 lists it. ALPHA stands inside `sbox` (`Sbox.power`). -/
structure Config where
  /-- P, the field modulus; prime (R8). -/
  p : Nat
  /-- FW, the width in bits of an operand or result word (R7, R38). -/
  fw : Nat
  /-- T, the state width in lanes. -/
  t : Nat
  /-- RATE, the number of rate lanes. -/
  rate : Nat
  /-- RF, the total count of full rounds. -/
  rf : Nat
  /-- RP, the count of partial rounds. -/
  rp : Nat
  /-- SBOX (with ALPHA). -/
  sbox : Sbox
  /-- MDS, row by row. -/
  mds : List (List Nat)
  /-- MDS_INV: kept, and read by no rule (R76). -/
  mdsInv : List (List Nat)
  /-- RC, one row per round. -/
  rc : List (List Nat)
  /-- SECURE_MDS: kept, and read by no rule (R76). -/
  secureMds : Nat
  /-- L, the domain's input-length class (R93). -/
  l : Nat
  /-- L_MAX, the largest L the domain supports (D23). -/
  lMax : Nat
  /-- CAP_SHIFT, the bit position of L in the capacity value (R94, D25). -/
  capShift : Nat
  /-- OUT_TAG, the output-length tag (R94, D25). -/
  outTag : Nat
  /-- BYTE_ORDER (R39). -/
  byteOrder : ByteOrder
  deriving DecidableEq, Repr

/-- TOY-A (95_test_vectors.md part 2). -/
def Config.toyA : Config where
  p := 97
  fw := 7
  t := 3
  rate := 2
  rf := 2
  rp := 1
  sbox := .power 5
  mds := [[2, 3, 1], [1, 2, 3], [3, 1, 2]]
  mdsInv := [[27, 59, 92], [92, 27, 59], [59, 92, 27]]
  rc := [[1, 2, 3], [4, 5, 6], [7, 8, 9]]
  secureMds := 0
  l := 2
  lMax := 65535
  capShift := 64
  outTag := 0
  byteOrder := .le

/-- TOY-B (95_test_vectors.md part 2). -/
def Config.toyB : Config :=
  { Config.toyA with
    rf := 4, rp := 2, l := 3,
    rc := [[1, 2, 3], [4, 5, 6], [7, 8, 9], [10, 11, 12], [13, 14, 15], [16, 17, 18]] }

/-- A free value (notes/assumptions/6.md, DESIGN CHOICE): what RH[31:16] holds when a response carries more words
than a 16-bit count can say. R58 gives the field 16 bits and R53 gives PADDING `RATE + 1` result words, which
is 65536 when RATE = 65535; the spec states no value there. Nothing in Lean can evaluate it. -/
opaque Config.oversizeCount : Nat → BitVec 16

end Sys2Proof
end

