-- ==== Sys2Proof/Syntax.lean ====
section
/-! DEFINITION. The commands of the opcode map (R53), one constructor per row of spec/opcode_table.json, and the
assembler's two pseudo-instructions (R62). A constructor carries the operand words of its frame as they arrived. -/

namespace Sys2Proof

/-- One command. PERM, FOLD and HASH carry their operand words `W[0..N-1]` whole, since the count they need
depends on CFG (R50); the formats F0 and F1 have a fixed count. -/
inductive Instr where
  /-- NOP (R110) -/
  | nop
  /-- STATUS (R111) -/
  | status
  /-- INIT (R106) -/
  | init
  /-- ABSORB v (R85) -/
  | absorb (v : Nat)
  /-- SQUEEZE (R86) -/
  | squeeze
  /-- HASH m0, ..., m(N-1) (R107) -/
  | hash (m : List Nat)
  /-- PERM x0, ..., x(N-1) (R75) -/
  | perm (x : List Nat)
  /-- FOLD s; b; k (R102): the words of s, then of b, then the mask k -/
  | fold (w : List Nat)
  /-- CAPIV (R100) -/
  | capiv
  /-- PADDING (R101) -/
  | padding
  deriving DecidableEq, Repr

/-- The ten defined opcodes (R53), by name. -/
inductive Op where
  | nop | status | init | absorb | squeeze | hash | perm | fold | capiv | padding
  deriving DecidableEq, Repr

/-- The opcode of a command. -/
def Instr.op : Instr → Op
  | .nop => .nop
  | .status => .status
  | .init => .init
  | .absorb _ => .absorb
  | .squeeze => .squeeze
  | .hash _ => .hash
  | .perm _ => .perm
  | .fold _ => .fold
  | .capiv => .capiv
  | .padding => .padding

/-- The operand words `W[0..N-1]` of a command's frame (R50). -/
def Instr.words : Instr → List Nat
  | .nop => []
  | .status => []
  | .init => []
  | .absorb v => [v]
  | .squeeze => []
  | .hash m => m
  | .perm x => x
  | .fold w => w
  | .capiv => []
  | .padding => []

/-- The assembler's pseudo-instructions; the core never sees them (R62). -/
inductive Pseudo where
  /-- ABSORBS v0, ..., v(n-1) -/
  | absorbs (vs : List Nat)
  /-- SQUEEZES n -/
  | squeezes (n : Nat)
  deriving DecidableEq, Repr

end Sys2Proof
end

