-- ==== Sys2Proof/WellFormed.lean ====
section
/-! DEFINITION. When a command is well formed under a configuration: its frame can be sent (R48, R49) and none of
the BAD_OPERAND conditions on its operand words holds (R50 to R52, R119). A HASH of any length is well formed
(R50): its length is checked later, against L (R122). -/

namespace Sys2Proof

/-- The operand count is the one the format requires (R50); any count will do for HASH. -/
def Instr.countOk (c : Config) : Instr → Bool
  | .perm x => x.length == c.t
  | .fold w => w.length == c.t + c.rate + 1
  | .nop | .status | .init | .absorb _ | .squeeze | .hash _ | .capiv | .padding => true

/-- The count fits the 16-bit field N of the header (R49). -/
def Instr.countFits (i : Instr) : Bool := i.words.length ≤ 65535

/-- Every operand word fits in FW bits (R38). -/
def Instr.wordsFit (c : Config) (i : Instr) : Bool := i.words.all fun w => w < 2 ^ c.fw

/-- The value words of a command: all words but FOLD's mask (R51). -/
def Instr.valueWords (c : Config) : Instr → List Nat
  | .fold w => w.take (c.t + c.rate)
  | .nop => []
  | .status => []
  | .init => []
  | .absorb v => [v]
  | .squeeze => []
  | .hash m => m
  | .perm x => x
  | .capiv => []
  | .padding => []

/-- Every value word is canonical, FOLD's buffer words under a zero mask bit included (R51). -/
def Instr.valuesCanonical (c : Config) (i : Instr) : Bool := (i.valueWords c).all fun w => w < c.p

/-- FOLD's mask word is below 2^RATE (R52). -/
def Instr.maskOk (c : Config) : Instr → Bool
  | .fold w => (w.drop (c.t + c.rate)).all fun k => k < 2 ^ c.rate
  | .nop | .status | .init | .absorb _ | .squeeze | .hash _ | .perm _ | .capiv | .padding => true

/-- A frame can carry the command: the count fits the header and the words fit their width (R48, R49, R38). -/
def Instr.sendable (c : Config) (i : Instr) : Bool := i.countFits && i.wordsFit c

/-- The operand checks of R119 that need CFG all pass (RSV and the fixed counts are the decoder's). -/
def Instr.operandsOk (c : Config) (i : Instr) : Bool :=
  i.countOk c && i.wordsFit c && i.valuesCanonical c && i.maskOk c

/-- A well-formed command: a frame can carry it and no BAD_OPERAND condition holds. -/
def Instr.wellFormed (c : Config) (i : Instr) : Bool := i.countFits && i.operandsOk c

end Sys2Proof
end

