-- ==== Sys2Proof/Decode.lean ====
section
/-! DEFINITION. The command interface's receiver: from the bytes of a byte-wide transport (R39, R40) to words, from
words to a frame (R48, R54), from a frame to a command or a named rejection (R53, R55, R56, R119); and the encoder,
the assembler's header and words laid out as bytes (R61). -/

namespace Sys2Proof

/-! ### Words on a byte-wide transport (R39, R40) -/

/-- ELEM_BYTES = ceil(FW / 8) (R7). -/
def Config.elemBytes (c : Config) : Nat := (c.fw + 7) / 8

/-- The number whose byte k (bits [8k+7 : 8k]) is the k-th byte of the list. -/
def leNat : List Byte → Nat
  | [] => 0
  | b :: bs => b.toNat + 256 * leNat bs

/-- The n low bytes of a number, byte 0 first. -/
def leBytes : Nat → Nat → List Byte
  | 0, _ => []
  | n + 1, w => BitVec.ofNat 8 w :: leBytes n (w / 256)

/-- The word that a group of bytes carries; under BE the order is reversed (R39). -/
def wordOfBytes : ByteOrder → List Byte → Nat
  | .le, bs => leNat bs
  | .be, bs => leNat bs.reverse

/-- A word as n bytes in the transport's byte order (R39). -/
def bytesOfWord : ByteOrder → Nat → Nat → List Byte
  | .le, n, w => leBytes n w
  | .be, n, w => (leBytes n w).reverse

/-- A header or STATUS word as 4 bytes (R40). -/
def bytesOfHeader (o : ByteOrder) (h : Header) : List Byte := bytesOfWord o 4 h.toNat

/-- The first n bytes and the rest, or none while fewer have arrived (R41). -/
def takeBytes : Nat → List Byte → Option (List Byte × List Byte)
  | 0, bs => some ([], bs)
  | _ + 1, [] => none
  | n + 1, b :: bs => (takeBytes n bs).map fun r => (b :: r.1, r.2)

/-- n operand words and the rest, or none while they have not all arrived (R41, R54). -/
def takeWords (c : Config) : Nat → List Byte → Option (List Nat × List Byte)
  | 0, bs => some ([], bs)
  | n + 1, bs =>
    match takeBytes c.elemBytes bs with
    | none => none
    | some (w, bs') => (takeWords c n bs').map fun r => (wordOfBytes c.byteOrder w :: r.1, r.2)

/-! ### Frames (R48, R49, R54) -/

/-- The fields of a header word (R49). -/
def Header.opc (h : Header) : BitVec 8 := h.extractLsb' 0 8
def Header.rsv (h : Header) : BitVec 8 := h.extractLsb' 8 8
def Header.count (h : Header) : Nat := (h.extractLsb' 16 16).toNat

/-- A command frame: OPC, RSV and the operand words; N is their number (R48). -/
structure Frame where
  opc : BitVec 8
  rsv : BitVec 8
  words : List Nat
  deriving DecidableEq, Repr

/-- The first whole frame on the channel and the bytes after it. The length is known from the header alone,
whatever the opcode (R54); none while the frame has not arrived whole (R41). -/
def takeFrame (c : Config) (bs : List Byte) : Option (Frame × List Byte) :=
  match takeBytes 4 bs with
  | none => none
  | some (hb, bs₁) =>
    let h : Header := BitVec.ofNat 32 (wordOfBytes c.byteOrder hb)
    (takeWords c (Header.count h) bs₁).map fun r => (⟨Header.opc h, Header.rsv h, r.1⟩, r.2)

/-! ### Opcodes (R53, R55) -/

/-- The opcode map (R53). -/
def Op.code : Op → BitVec 8
  | .nop => 0x00
  | .status => 0x01
  | .init => 0x02
  | .absorb => 0x10
  | .squeeze => 0x11
  | .hash => 0x20
  | .perm => 0x30
  | .fold => 0x31
  | .capiv => 0x32
  | .padding => 0x33

def Op.all : List Op := [.nop, .status, .init, .absorb, .squeeze, .hash, .perm, .fold, .capiv, .padding]

/-- The defined opcode a byte stands for; none for a reserved one (R55). -/
def Op.ofByte (b : BitVec 8) : Option Op := Op.all.find? fun o => o.code == b

/-! ### Decoding a frame (R54, R56, R119) -/

/-- Why a frame is no command, by name. -/
inductive DecodeError where
  /-- reserved OPC: ILLEGAL_CMD (R55) -/
  | reservedOpcode
  /-- RSV is not 0: BAD_OPERAND (R56) -/
  | reservedBits
  /-- N is not the count the format F0 or F1 requires: BAD_OPERAND (R50, R56) -/
  | wrongCount
  deriving DecidableEq, Repr

/-- The command of a defined opcode with these operand words. F0 needs none and F1 one (R50); the counts of FT and FF
depend on CFG and are checked with the operands; any count decodes for FV. -/
def instrOf : Op → List Nat → Except DecodeError Instr
  | .nop, [] => .ok .nop
  | .status, [] => .ok .status
  | .init, [] => .ok .init
  | .absorb, [v] => .ok (.absorb v)
  | .squeeze, [] => .ok .squeeze
  | .hash, m => .ok (.hash m)
  | .perm, x => .ok (.perm x)
  | .fold, w => .ok (.fold w)
  | .capiv, [] => .ok .capiv
  | .padding, [] => .ok .padding
  | _, _ => .error .wrongCount

/-- The decoder: the opcode first, then RSV, then N (R119, R123). No mode bit and no earlier command changes it. -/
def decodeFrame (f : Frame) : Except DecodeError Instr :=
  match Op.ofByte f.opc with
  | none => .error .reservedOpcode
  | some o => if f.rsv = 0 then instrOf o f.words else .error .reservedBits

/-- What the receiver finds on the channel. -/
inductive Received where
  /-- no whole frame has arrived (R41) -/
  | waiting
  /-- a command, and the bytes after its frame -/
  | command (i : Instr) (rest : List Byte)
  /-- a frame that is no command: its OPC, why, and the bytes after it -/
  | rejected (opc : BitVec 8) (e : DecodeError) (rest : List Byte)
  deriving DecidableEq, Repr

/-- The receiver, total on any bytes. -/
def receive (c : Config) (bs : List Byte) : Received :=
  match takeFrame c bs with
  | none => .waiting
  | some (f, rest) =>
    match decodeFrame f with
    | .ok i => .command i rest
    | .error e => .rejected f.opc e rest

/-! ### Encoding (R49, R61) -/

/-- The header word of a frame with N operand words and RSV = 0: `(N << 16) | OPC` (R61). -/
def headerOf (o : Op) (n : Nat) : Header := BitVec.ofNat 16 n ++ (0 : BitVec 8) ++ o.code

def Instr.header (i : Instr) : Header := headerOf i.op i.words.length

/-- The frame of a command. -/
def Instr.frame (i : Instr) : Frame := ⟨i.op.code, 0, i.words⟩

/-- Operand words as the transport carries them, in order. -/
def bytesOfWords (c : Config) (ws : List Nat) : List Byte :=
  ws.flatMap fun w => bytesOfWord c.byteOrder c.elemBytes w

/-- The bytes of a command's frame: header, then operand words in order (R48, R61). -/
def encode (c : Config) (i : Instr) : List Byte :=
  bytesOfHeader c.byteOrder i.header ++ bytesOfWords c i.words

/-! ### Instructions by the opcode table's bit numbering -/

/-- The k-th operand word of an instruction whose bits are w: FW bits from bit 32 + k * FW on. -/
def tableOperand (c : Config) (w k : Nat) : Nat := w >>> (32 + k * c.fw) % 2 ^ c.fw

/-- The words `tableOperand c w 0, 1, ...` from the k-th on, n of them. -/
def tableOperands (c : Config) (w : Nat) : Nat → Nat → List Nat
  | _, 0 => []
  | k, n + 1 => tableOperand c w k :: tableOperands c w (k + 1) n

/-- The bytes of the frame whose bits are the low nbits bits of w, all higher bits zero: the header is bits 31..0 and the
N operand words it announces follow, FW bits each. -/
def tableBytes (c : Config) (nbits w : Nat) : List Byte :=
  let v := w % 2 ^ nbits
  let h : Header := BitVec.ofNat 32 v
  bytesOfHeader c.byteOrder h ++ bytesOfWords c (tableOperands c v 0 (Header.count h))

/-- The instruction the decoder reads from an opcode-table word, under the configuration State.reset holds (DESIGN CHOICE,
notes/assumptions/2.md), operand words above the given bits being zero (DEDUCED, notes/assumptions/7.md). -/
def decodeTableWord (nbits w : Nat) : Option Instr :=
  match receive Config.toyA (tableBytes Config.toyA nbits w) with
  | .command i _ => some i
  | .waiting | .rejected _ _ _ => none

end Sys2Proof
end

