-- ==== Sys2Proof/Machine/State.lean ====
section
/-! DEFINITION. The architectural state (10_state.md), the core's two channels, reset (R32, R131), and the reasons a
step of the model can stop. The spec's own faults (R118) are no stops: they are taken, and the machine goes on. -/

namespace Sys2Proof.Machine

/-- The sponge mode tag (R20). The buffer it carries is the field `buf`. -/
inductive Mode where
  | absorbing
  | squeezing
  deriving DecidableEq, Repr

/-- The instance lifecycle LC (R22). -/
inductive Lifecycle where
  | uninit
  | ready
  | duplex
  | consumed
  deriving DecidableEq, Repr

/-- The fault codes of R118 by name. Codes 11 to 15 are reserved and never raised; the type has no value for them. -/
inductive FaultCode where
  | none
  | rcLen
  | rfOdd
  | msgLen
  | lUnsupported
  | notInit
  | consumed
  | illegalCmd
  | badOperand
  | hashAfterDuplex
  | shape
  deriving DecidableEq, Repr

/-- A rate buffer: RATE slots, each unset (none) or set to a value (R13, R19). -/
abbrev RateBuffer := List (Option Nat)

/-- The response status ST (R58); the value 3 is never sent. -/
inductive RespStatus where
  | ok
  | fault
  | refused
  deriving DecidableEq, Repr

/-- A response frame (R58, R59): the fields its header carries, and its result words in order. The count M is the
number of words. -/
structure Response where
  opc : BitVec 8
  st : RespStatus
  fcode : FaultCode
  words : List Nat
  deriving DecidableEq, Repr

/-- The state of the core. -/
structure State where
  /-- CFG: no step writes it (R25; notes/assumptions/1.md). -/
  cfg : Config
  /-- STATE: T lanes (R17). -/
  lanes : List Nat
  /-- BUF: the rate buffer carried by the mode (R19). -/
  buf : RateBuffer
  /-- MODE (R20). -/
  mode : Mode
  /-- LC (R22). -/
  lc : Lifecycle
  /-- FAULT (R23). -/
  fault : Bool
  /-- FCODE (R24). -/
  fcode : FaultCode
  /-- Bytes the host has sent and the core has not yet taken, oldest first (R41, R45). -/
  rx : List Byte
  /-- Response frames the core has sent, oldest first (R45, R58). -/
  tx : List Response
  /-- The reset signal, an input from outside the command interface (R131). -/
  rst : Bool
  deriving DecidableEq, Repr

/-- The core with configuration c right after reset (R32). STATE, BUF and MODE hold no value there by the spec; the
model names zero lanes, an unset buffer and Absorbing (DESIGN CHOICE, notes/assumptions/3.md). -/
def State.resetWith (c : Config) : State where
  cfg := c
  lanes := List.replicate c.t 0
  buf := List.replicate c.rate none
  mode := .absorbing
  lc := .uninit
  fault := false
  fcode := .none
  rx := []
  tx := []
  rst := false

/-- The state after reset, for the configuration TOY-A (DESIGN CHOICE, notes/assumptions/2.md). -/
def State.reset : State := State.resetWith Config.toyA

/-- The machine stops with a fault. -/
inductive Fault where
  /-- SQUEEZE_STEP's loop never ends (R84): raised by SQUEEZE and HASH when RATE = 0 in a state whose LC is not UNINIT.
  INIT's SHAPE check keeps every run from it. A stuck state; safe. -/
  | squeezeNeverEnds
  deriving DecidableEq, Repr

/-- No meaning for what is asked. -/
inductive Refusal where
  /-- an instruction without a meaning yet, by its mnemonic; raised by exec's arm only; safe -/
  | notModelled (mnemonic : String)
  /-- CFG is outside what the spec allows (R7, R8, U2), so the rules say nothing of the core; raised by step; safe -/
  | configOutsideSpec
  deriving DecidableEq, Repr

end Sys2Proof.Machine
end

