-- ==== Sys2Proof/Machine/Ops.lean ====
section
/-! DEFINITION. The shared operations of every command: lanes and table entries by index, responses (R59), taking a
fault (R124), refusing (R125), the order of checks every command goes through (R123), and reset (R131). The core
has no return from a fault (R126) and no memory (R36). -/

namespace Sys2Proof.Machine

/-- `xs[i]` (R11). An index past the end reads 0; it occurs only in states and configurations outside the invariant
(notes/assumptions/9.md). -/
def lane (xs : List Nat) (i : Nat) : Nat := xs.getD i 0

/-- `MDS[i][j]`: row i, column j (R68). -/
def mdsAt (c : Config) (i j : Nat) : Nat := lane (c.mds.getD i []) j

/-- `RC[r][i]` (R64). -/
def rcAt (c : Config) (r i : Nat) : Nat := lane (c.rc.getD r []) i

/-! ### Responses -/

/-- `respond(st, words)`: one response frame with OPC echoed and the current FCODE (R59). -/
def respond (op : BitVec 8) (st : RespStatus) (words : List Nat) (s : State) : State :=
  { s with tx := s.tx ++ [⟨op, st, s.fcode, words⟩] }

/-- An OK response (R59). -/
def respondOk (op : Op) (words : List Nat) (s : State) : State := respond op.code .ok words s

/-! ### Faults -/

/-- `raise Fault(code)`: FAULT and FCODE are set, the response says so, and nothing else changes (R124). -/
def raiseFault (op : BitVec 8) (code : FaultCode) (s : State) : State :=
  respond op .fault [] { s with fault := true, fcode := code }

/-- The answer to a refused frame: no state changes (R125). -/
def refuse (op : BitVec 8) (s : State) : State := respond op .refused [] s

/-- The first fault whose condition holds, in the order listed (R123). -/
def firstFault : List (Bool × FaultCode) → Option FaultCode
  | [] => none
  | (cond, code) :: rest => if cond then some code else firstFault rest

/-- How every command but STATUS runs: refused while a fault is recorded (R125), else the first fault whose condition
holds is raised, and only with no fault does the command act (R117, R123). -/
def command (op : Op) (checks : List (Bool × FaultCode))
    (act : State → Host.Outcome State Fault Refusal) (s : State) : Host.Outcome State Fault Refusal :=
  if s.fault then .next (refuse op.code s)
  else
    match firstFault checks with
    | some code => .next (raiseFault op.code code s)
    | none => act s

/-- The fault code a decode error raises (R119). -/
def DecodeError.code : DecodeError → FaultCode
  | .reservedOpcode => .illegalCmd
  | .reservedBits => .badOperand
  | .wrongCount => .badOperand

/-- What the core does with a frame that is no command: refused while a fault is recorded, else its fault (R119, R123). -/
def rejectFrame (op : BitVec 8) (e : DecodeError) (s : State) : State :=
  if s.fault then refuse op s else raiseFault op (DecodeError.code e) s

/-! ### Reset -/

/-- Reset arrives: the state takes its values after reset, bytes of frames not yet run are dropped, CFG does not change,
and responses sent before stay sent (R131; DEDUCED, notes/assumptions/5.md). -/
def applyReset (s : State) : State := { State.resetWith s.cfg with tx := s.tx }

/-! ### What the host does (R45, R131) -/

/-- The host sends bytes: they arrive after the ones before them (R45). -/
def hostSend (bs : List Byte) (s : State) : State := { s with rx := s.rx ++ bs }

/-- The reset signal is raised (R131). -/
def hostReset (s : State) : State := { s with rst := true }

/-! ### The configuration the model admits -/

/-- Every element of a row is a canonical element of F (R8). -/
def rowCanonical (c : Config) (row : List Nat) : Bool := row.all fun x => x < c.p

/-- A table of T-rows over F. -/
def tableOk (c : Config) (rows : List (List Nat)) : Bool :=
  rows.all fun row => row.length == c.t && rowCanonical c row

/-- SBOX is a map from F to F (R7): every power map is one; a table needs P canonical entries. -/
def sboxOk (c : Config) : Bool :=
  match c.sbox with
  | .power _ => true
  | .table xs => xs.length == c.p && rowCanonical c xs

/-- No number from d on, n of them, whose square is at most p divides p: trial division. -/
def noDivisorFrom (p : Nat) : Nat → Nat → Bool
  | 0, _ => true
  | n + 1, d => p < d * d || (p % d != 0 && noDivisorFrom p n (d + 1))

/-- P is prime (R8). -/
def isPrime (p : Nat) : Bool := 2 ≤ p && noDivisorFrom p p 2

/-- The constraints R7 and R8 put on CFG and the core does not check; a model must refuse a CFG that breaks them (U2): P is
prime, FW holds every element, L_MAX fits a header, and, where T = RATE + 1 so that T is the width of the state, MDS is a
T x T matrix over F, the rows of RC are T-vectors over F, and SBOX is a map from F to F (notes/assumptions/4.md). MDS_INV is
not constrained (R76). -/
def configAdmitted (c : Config) : Bool :=
  isPrime c.p && bitlen (c.p - 1) ≤ c.fw && c.lMax ≤ 65535 &&
    (c.t != c.rate + 1 || (c.mds.length == c.t && tableOk c c.mds && tableOk c c.rc && sboxOk c))

end Sys2Proof.Machine
end

