-- ==== Sys2Proof/Machine/Operands.lean ====
section
/-! DEFINITION. The operand forms (R50 to R52): the canonical check on value words, FOLD's state, buffer values and mask,
and the BAD_OPERAND conditions of each format that depend on CFG (R119). -/

namespace Sys2Proof.Machine

/-- A value word is an FW-bit word that holds a canonical element of F (R38, R39, R51). -/
def canonical (c : Config) (w : Nat) : Bool := w < 2 ^ c.fw && w < c.p

/-- Every value word is canonical (R51). -/
def valuesOk (c : Config) (ws : List Nat) : Bool := ws.all (canonical c)

/-- FOLD's state operand `s = W[0..T-1]` (R50). -/
def foldState (c : Config) (w : List Nat) : List Nat := w.take c.t

/-- FOLD's buffer values `b = W[T..T+RATE-1]` (R50). -/
def foldValues (c : Config) (w : List Nat) : List Nat := (w.drop c.t).take c.rate

/-- FOLD's mask word `k = W[T+RATE]` (R50, R52). -/
def foldMask (c : Config) (w : List Nat) : Nat := lane w (c.t + c.rate)

/-- The mask is an FW-bit word below 2^RATE (R52). -/
def maskOk (c : Config) (k : Nat) : Bool := k < 2 ^ c.fw && k < 2 ^ c.rate

/-- The rate buffer that values b and mask k stand for: slot i is set to `b[i]` when bit i of k is 1 (R52). -/
def maskedBuffer (c : Config) (b : List Nat) (k : Nat) : RateBuffer :=
  (List.range c.rate).map fun i => if k.testBit i then some (lane b i) else none

/-- The mask of a rate buffer: bit i says slot i is set (R52, R101). -/
def bufferMask : RateBuffer → Nat
  | [] => 0
  | slot :: rest => (if slot.isSome then 1 else 0) + 2 * bufferMask rest

/-- The value words of a rate buffer; an unset slot's word reads 0 (R101). -/
def bufferValues (b : RateBuffer) : List Nat := b.map fun slot => slot.getD 0

/-- BAD_OPERAND of format F1 (R119). -/
def badF1 (c : Config) (v : Nat) : Bool := !canonical c v

/-- BAD_OPERAND of format FV; any count decodes (R50, R119). -/
def badFV (c : Config) (m : List Nat) : Bool := !valuesOk c m

/-- BAD_OPERAND of format FT: N is not T, or a word is not canonical (R119). -/
def badFT (c : Config) (x : List Nat) : Bool := x.length != c.t || !valuesOk c x

/-- BAD_OPERAND of format FF: N, then the value words (masked-off ones too), then the mask (R119, R123). -/
def badFF (c : Config) (w : List Nat) : Bool :=
  w.length != c.t + c.rate + 1 || !valuesOk c (w.take (c.t + c.rate)) || !maskOk c (foldMask c w)

end Sys2Proof.Machine
end

