-- ==== Sys2Proof/Machine/Flags.lean ====
section
/-! DEFINITION. The control state: lifecycle conditions (R121), the INIT configuration checks (R120), the STATUS word
(R60), and the response header with its wire form (R58, R40). The core has no arithmetic flags (R29). -/

namespace Sys2Proof.Machine

/-! ### Encodings -/

/-- LC in the STATUS word (R22, R60). -/
def Lifecycle.code : Lifecycle → BitVec 3
  | .uninit => 0
  | .ready => 1
  | .duplex => 2
  | .consumed => 3

/-- MODE in the STATUS word: 0 Absorbing, 1 Squeezing (R20, R60). -/
def Mode.code : Mode → BitVec 1
  | .absorbing => 0
  | .squeezing => 1

/-- The numbers of R118. -/
def FaultCode.code : FaultCode → BitVec 4
  | .none => 0
  | .rcLen => 1
  | .rfOdd => 2
  | .msgLen => 3
  | .lUnsupported => 4
  | .notInit => 5
  | .consumed => 6
  | .illegalCmd => 7
  | .badOperand => 8
  | .hashAfterDuplex => 9
  | .shape => 10

/-- The response status ST (R58). -/
def RespStatus.code : RespStatus → BitVec 2
  | .ok => 0
  | .fault => 1
  | .refused => 2

/-! ### Lifecycle (R121) -/

/-- The NOT_INIT condition of the commands that need LC ≠ UNINIT (R121). -/
def notInit (s : State) : Bool := s.lc == .uninit

/-- The CONSUMED condition of ABSORB, SQUEEZE and HASH (R121). -/
def isConsumed (s : State) : Bool := s.lc == .consumed

/-- The HASH_AFTER_DUPLEX condition (R121). -/
def afterDuplex (s : State) : Bool := s.lc == .duplex

/-! ### The INIT checks (R120) -/

/-- SHAPE holds: RATE ≥ 1, T = RATE + 1, RATE ≤ 65535 and RATE ≤ FW. -/
def shapeOk (c : Config) : Bool := 1 ≤ c.rate && c.t == c.rate + 1 && c.rate ≤ 65535 && c.rate ≤ c.fw

/-- The INIT configuration checks, in order (R120). -/
def initChecks (c : Config) : List (Bool × FaultCode) :=
  [(!shapeOk c, .shape),
   (c.rf % 2 != 0, .rfOdd),
   (c.rc.length != c.rf + c.rp, .rcLen),
   (c.lMax < c.l, .lUnsupported)]

/-! ### The STATUS word (R60) -/

/-- The number of set slots of a buffer. -/
def setSlots (b : RateBuffer) : Nat := b.countP Option.isSome

/-- NSET: 0 while LC = UNINIT (R60). -/
def nset (s : State) : Nat := if s.lc = .uninit then 0 else setSlots s.buf

/-- The MODE bit: 0 while LC = UNINIT (R60). -/
def modeBit (s : State) : BitVec 1 := if s.lc = .uninit then 0 else s.mode.code

/-- The STATUS word: NSET, 0, FCODE, 0, FAULT, MODE, LC, from bit 31 down (R60). -/
def statusWord (s : State) : Header :=
  BitVec.ofNat 16 (nset s) ++ (0 : BitVec 4) ++ s.fcode.code ++ (0 : BitVec 3) ++ BitVec.ofBool s.fault
    ++ modeBit s ++ s.lc.code

/-! ### Response frames (R58) and their wire form (R40) -/

/-- RH[31:16]: the number of result words. More than 16 bits can say is a free value (notes/assumptions/6.md). -/
def Response.count (r : Response) : BitVec 16 :=
  if r.words.length ≤ 65535 then BitVec.ofNat 16 r.words.length else Config.oversizeCount r.words.length

/-- The response header RH (R58). -/
def Response.header (r : Response) : Header :=
  r.count ++ r.fcode.code ++ (0 : BitVec 2) ++ r.st.code ++ r.opc

/-- The bytes of a result word: a STATUS word is a 4-byte word, every other result word takes ELEM_BYTES (R39, R40). -/
def Response.wordBytes (c : Config) (r : Response) (w : Nat) : List Byte :=
  if r.opc = Op.status.code then bytesOfWord c.byteOrder 4 w else bytesOfWord c.byteOrder c.elemBytes w

/-- A response frame on a byte-wide transport (R39, R40). -/
def Response.bytes (c : Config) (r : Response) : List Byte :=
  bytesOfHeader c.byteOrder r.header ++ r.words.flatMap (r.wordBytes c)

/-- Everything the core has sent, as bytes (R45). -/
def sentBytes (s : State) : List Byte := s.tx.flatMap (Response.bytes s.cfg)

end Sys2Proof.Machine
end

