-- ==== Sys2Proof/Machine/Permutation.lean ====
section
/-! DEFINITION. The permutation datapath PDP (40_permutation.md): field arithmetic, ARC, the S-box layers, the MDS layer,
the rounds and their schedule, PERMUTE, and the command PERM. -/

namespace Sys2Proof.Machine

/-! ### Field arithmetic (R10, R63) -/

/-- `a + b` in F. -/
def addF (c : Config) (a b : Nat) : Nat := (a + b) % c.p

/-- `a · b` in F. -/
def mulF (c : Config) (a b : Nat) : Nat := (a * b) % c.p

/-- `x^k` in F, with `x^0 = 1`. -/
def powF (c : Config) (x : Nat) (k : Nat) : Nat := x ^ k % c.p

/-- The sum in F of a list. -/
def sumF (c : Config) (xs : List Nat) : Nat := xs.foldl (addF c) 0

/-! ### The steps of a round -/

/-- SBOX (R65). -/
def sbox (c : Config) (x : Nat) : Nat :=
  match c.sbox with
  | .power alpha => powF c x alpha
  | .table values => lane values x

/-- ARC(s, r): the row RC[r] is added to every lane (R64). -/
def arc (c : Config) (s : List Nat) (r : Nat) : List Nat :=
  (List.range c.t).map fun i => addF c (lane s i) (rcAt c r i)

/-- SBOX_FULL (R66). -/
def sboxFull (c : Config) (s : List Nat) : List Nat :=
  (List.range c.t).map fun i => sbox c (lane s i)

/-- SBOX_PARTIAL: lane 0 only (R67). -/
def sboxPartial (c : Config) (s : List Nat) : List Nat :=
  (List.range c.t).map fun i => if i = 0 then sbox c (lane s i) else lane s i

/-- MDS_MIX: every output lane reads the old value of every input lane (R68). -/
def mdsMix (c : Config) (s : List Nat) : List Nat :=
  (List.range c.t).map fun i => sumF c ((List.range c.t).map fun j => mulF c (mdsAt c i j) (lane s j))

/-- FULL_ROUND(s, r) (R69). -/
def fullRound (c : Config) (s : List Nat) (r : Nat) : List Nat := mdsMix c (sboxFull c (arc c s r))

/-- PARTIAL_ROUND(s, r) (R70). -/
def partialRound (c : Config) (s : List Nat) (r : Nat) : List Nat := mdsMix c (sboxPartial c (arc c s r))

/-! ### The schedule and the permutation -/

/-- KIND(r) is PARTIAL: rf ≤ r < rf + RP with rf = RF / 2; every other round is FULL (R71). -/
def isPartialRound (c : Config) (r : Nat) : Bool := c.rf / 2 ≤ r && r < c.rf / 2 + c.rp

/-- Round r (R72). -/
def round (c : Config) (s : List Nat) (r : Nat) : List Nat :=
  if isPartialRound c r then partialRound c s r else fullRound c s r

/-- PERMUTE(s): rounds 0 .. RF+RP-1 in order (R72). -/
def permute (c : Config) (s : List Nat) : List Nat := (List.range (c.rf + c.rp)).foldl (round c) s

/-! ### PERM -/

/-- PERM (R75). -/
def execPerm (x : List Nat) (s : State) : Host.Outcome State Fault Refusal :=
  command .perm [(badFT s.cfg x, .badOperand), (notInit s, .notInit)]
    (fun s => .next (respondOk .perm (permute s.cfg x) s)) s

end Sys2Proof.Machine
end

