-- ==== Sys2Proof/Machine/Domain.lean ====
section
/-! DEFINITION. The domain unit DOM (42_domain.md): the capacity initial value, padding, the fold, and the commands CAPIV,
PADDING and FOLD. -/

namespace Sys2Proof.Machine

/-- CAP_IV = (L · 2^CAP_SHIFT + OUT_TAG) mod P (R94). -/
def capIv (c : Config) : Nat := (c.l * 2 ^ c.capShift + c.outTag) % c.p

/-- PAD: slots at or above L hold an explicit zero (R95). -/
def pad (c : Config) : RateBuffer := (List.range c.rate).map fun i => if i < c.l then none else some 0

/-- Slot i of a buffer; past the end it is unset. -/
def slot (b : RateBuffer) (i : Nat) : Option Nat := b.getD i none

/-- FOLD(s, b): each set slot i < RATE is added into lane i, and every other lane is kept (R96). -/
def fold (c : Config) (s : List Nat) (b : RateBuffer) : List Nat :=
  (List.range c.t).map fun i =>
    if i < c.rate then
      match slot b i with
      | some u => addF c (lane s i) u
      | none => lane s i
    else lane s i

/-- CAPIV (R100). -/
def execCapiv (s : State) : Host.Outcome State Fault Refusal :=
  command .capiv [(notInit s, .notInit)] (fun s => .next (respondOk .capiv [capIv s.cfg] s)) s

/-- PADDING: RATE value words, then the mask word (R101). -/
def execPadding (s : State) : Host.Outcome State Fault Refusal :=
  command .padding [(notInit s, .notInit)]
    (fun s => .next (respondOk .padding (bufferValues (pad s.cfg) ++ [bufferMask (pad s.cfg)]) s)) s

/-- FOLD on host operands; the sponge's STATE is not used (R102). -/
def execFold (w : List Nat) (s : State) : Host.Outcome State Fault Refusal :=
  command .fold [(badFF s.cfg w, .badOperand), (notInit s, .notInit)]
    (fun s =>
      .next (respondOk .fold
        (fold s.cfg (foldState s.cfg w) (maskedBuffer s.cfg (foldValues s.cfg w) (foldMask s.cfg w))) s)) s

end Sys2Proof.Machine
end

