-- ==== Sys2Proof/Machine/Sponge.lean ====
section
/-! DEFINITION. The sponge controller SPC (41_sponge.md): the duplex round, ABSORB_STEP, SQUEEZE_STEP, and the commands
ABSORB and SQUEEZE. -/

namespace Sys2Proof.Machine

/-! ### Rate buffers -/

/-- `[None; RATE]` (R13). -/
def unsetBuffer (c : Config) : RateBuffer := List.replicate c.rate none

/-- `[Some(v)] ++ [None; RATE-1]` (R79, R80). -/
def freshBuffer (c : Config) (v : Nat) : RateBuffer := some v :: List.replicate (c.rate - 1) none

/-- The lowest index of an unset slot; none when the buffer is full (R78). -/
def firstUnset : RateBuffer → Option Nat
  | [] => none
  | none :: _ => some 0
  | some _ :: rest => (firstUnset rest).map (· + 1)

/-- The lowest index of a set slot and its value; none when the buffer is empty (R82). -/
def firstSet : RateBuffer → Option (Nat × Nat)
  | [] => none
  | some u :: _ => some (0, u)
  | none :: rest => (firstSet rest).map fun r => (r.1 + 1, r.2)

/-- The rate lanes as a full buffer (R77). -/
def rateBuffer (c : Config) (lanes : List Nat) : RateBuffer :=
  (List.range c.rate).map fun i => some (lane lanes i)

/-! ### The duplex round -/

/-- STATE after DUPLEX_ROUND(b): fold, then permute (R77). -/
def duplexLanes (c : Config) (lanes : List Nat) (b : RateBuffer) : List Nat := permute c (fold c lanes b)

/-- DUPLEX_ROUND(b): STATE is written, and the rate lanes of the permuted state are returned (R77). -/
def duplexRound (b : RateBuffer) (s : State) : State × RateBuffer :=
  let lanes := duplexLanes s.cfg s.lanes b
  ({ s with lanes := lanes }, rateBuffer s.cfg lanes)

/-! ### Absorb -/

/-- The three cases of ABSORB_STEP. -/
inductive AbsorbCase where
  /-- A1: slot i is the first unset one (R78) -/
  | fill (i : Nat)
  /-- A2: the buffer is full (R79) -/
  | overflow
  /-- A3: the mode is Squeezing (R80) -/
  | switch
  deriving DecidableEq, Repr

/-- Which case applies, by MODE and BUF. -/
def absorbCase (s : State) : AbsorbCase :=
  match s.mode with
  | .squeezing => .switch
  | .absorbing =>
    match firstUnset s.buf with
    | some i => .fill i
    | none => .overflow

/-- ABSORB_STEP(v) (R78 to R80). Case A2 keeps the duplex round's STATE and drops the buffer it returns (R88). -/
def absorbStep (v : Nat) (s : State) : State :=
  match absorbCase s with
  | .fill i => { s with buf := s.buf.set i (some v) }
  | .overflow => { (duplexRound s.buf s).1 with mode := .absorbing, buf := freshBuffer s.cfg v }
  | .switch => { s with mode := .absorbing, buf := freshBuffer s.cfg v }

/-! ### Squeeze -/

/-- The three cases of one pass of SQUEEZE_STEP. -/
inductive SqueezeCase where
  /-- S1: the mode is Absorbing (R81) -/
  | run
  /-- S2: slot i is the first set one and holds u (R82) -/
  | take (i : Nat) (u : Nat)
  /-- S3: Squeezing with an empty buffer (R83) -/
  | refill
  deriving DecidableEq, Repr

/-- Which case applies, by MODE and BUF. -/
def squeezeCase (s : State) : SqueezeCase :=
  match s.mode with
  | .absorbing => .run
  | .squeezing =>
    match firstSet s.buf with
    | some (i, u) => .take i u
    | none => .refill

/-- Case S1 of a pass (R81). -/
def squeezeRun (s : State) : State :=
  { (duplexRound s.buf s).1 with mode := .squeezing, buf := (duplexRound s.buf s).2 }

/-- The loop of SQUEEZE_STEP, at most n passes; none when it has not returned by then. -/
def squeezeLoop : Nat → State → Option (Nat × State)
  | 0, _ => none
  | n + 1, s =>
    match squeezeCase s with
    | .run => squeezeLoop n (squeezeRun s)
    | .take i u => some (u, { s with buf := s.buf.set i none })
    | .refill => squeezeLoop n { s with mode := .absorbing, buf := unsetBuffer s.cfg }

/-- SQUEEZE_STEP(): three passes are enough whenever RATE ≥ 1, and with RATE = 0 no number is (R84). -/
def squeezeStep (s : State) : Option (Nat × State) := squeezeLoop 3 s

/-- SQUEEZE_STEP, then LC and the response: the common end of SQUEEZE and HASH (R86, R107). -/
def squeezeAndRespond (op : Op) (lc : Lifecycle) (s : State) : Host.Outcome State Fault Refusal :=
  match squeezeStep s with
  | some (u, s') => .next (respondOk op [u] { s' with lc := lc })
  | none => .fault .squeezeNeverEnds

/-! ### The commands -/

/-- ABSORB (R85). -/
def execAbsorb (v : Nat) (s : State) : Host.Outcome State Fault Refusal :=
  command .absorb [(badF1 s.cfg v, .badOperand), (notInit s, .notInit), (isConsumed s, .consumed)]
    (fun s => .next (respondOk .absorb [] { absorbStep v s with lc := .duplex })) s

/-- SQUEEZE (R86). -/
def execSqueeze (s : State) : Host.Outcome State Fault Refusal :=
  command .squeeze [(notInit s, .notInit), (isConsumed s, .consumed)]
    (squeezeAndRespond .squeeze .duplex) s

end Sys2Proof.Machine
end

