-- ==== Sys2Proof/Machine/Hash.lean ====
section
/-! DEFINITION. The hash sequencer HSQ (43_hash_control.md): INIT and HASH. -/

namespace Sys2Proof.Machine

/-- STATE right after INIT: zero rate lanes and the capacity initial value (R106). -/
def initialLanes (c : Config) : List Nat := List.replicate c.rate 0 ++ [capIv c]

/-- A fresh instance: STATE, MODE, BUF and LC are written together (R34, R106). -/
def newInstance (s : State) : State :=
  { s with lanes := initialLanes s.cfg, mode := .absorbing, buf := unsetBuffer s.cfg, lc := .ready }

/-- INIT (R106). -/
def execInit (s : State) : Host.Outcome State Fault Refusal :=
  command .init (initChecks s.cfg) (fun s => .next (respondOk .init [] (newInstance s))) s

/-- Absorb the words of a message in order (R107). -/
def absorbAll (m : List Nat) (s : State) : State := m.foldl (fun s v => absorbStep v s) s

/-- HASH (R107). -/
def execHash (m : List Nat) (s : State) : Host.Outcome State Fault Refusal :=
  command .hash
    [(badFV s.cfg m, .badOperand), (notInit s, .notInit), (isConsumed s, .consumed),
     (afterDuplex s, .hashAfterDuplex), (m.length != s.cfg.l, .msgLen)]
    (fun s => squeezeAndRespond .hash .consumed (absorbAll m s)) s

end Sys2Proof.Machine
end

