-- ==== Sys2Proof/Machine/Control.lean ====
section
/-! DEFINITION. The control commands NOP and STATUS (43_hash_control.md part 4). -/

namespace Sys2Proof.Machine

/-- NOP (R110). -/
def execNop (s : State) : Host.Outcome State Fault Refusal :=
  command .nop [] (fun s => .next (respondOk .nop [] s)) s

/-- STATUS: answered with ST = OK in a faulted core too (R111, R125). -/
def execStatus (s : State) : Host.Outcome State Fault Refusal :=
  .next (respondOk .status [(statusWord s).toNat] s)

end Sys2Proof.Machine
end

