-- ==== Sys2Proof/Machine/Dispatch.lean ====
section
/-! DEFINITION. One arm per command: each calls the meaning of its own. -/

namespace Sys2Proof.Machine

def exec (i : Instr) (s : State) : Host.Outcome State Fault Refusal :=
  match i with
  | .nop => Sys2Proof.Machine.execNop s
  | .status => Sys2Proof.Machine.execStatus s
  | .init => Sys2Proof.Machine.execInit s
  | .absorb v => Sys2Proof.Machine.execAbsorb v s
  | .squeeze => Sys2Proof.Machine.execSqueeze s
  | .hash m => Sys2Proof.Machine.execHash m s
  | .perm x => Sys2Proof.Machine.execPerm x s
  | .fold w => Sys2Proof.Machine.execFold w s
  | .capiv => Sys2Proof.Machine.execCapiv s
  | .padding => Sys2Proof.Machine.execPadding s

end Sys2Proof.Machine
end

