-- ==== Sys2Proof/Machine/Step.lean ====
section
/-! DEFINITION. One step of the core: reset, or waiting, or one whole frame (R41, R43, R54, R131). -/

namespace Sys2Proof.Machine

/-- One step. Reset comes before everything (R131). A configuration outside the spec is refused (U2). With no whole frame on the
channel the core waits with no change of state (R41). A frame that is a command runs; one that is none is rejected (R119). -/
def step (s : State) : Host.Outcome State Fault Refusal :=
  if s.rst then .next (applyReset s)
  else if configAdmitted s.cfg then
    match receive s.cfg s.rx with
    | .waiting => .next s
    | .command i rest => exec i { s with rx := rest }
    | .rejected opc e rest => .next (rejectFrame opc e { s with rx := rest })
  else .refused .configOutsideSpec

/-- s with the frame of an opcode-table word at the head of the receive channel, and no reset pending: the frame the next step
takes. A program is the sequence of frames a host sends (R31; notes/assumptions/7.md). -/
def State.withFetchWord (s : State) (nbits w : Nat) : State :=
  { s with rx := tableBytes s.cfg nbits w ++ s.rx, rst := false }

end Sys2Proof.Machine
end

