-- ==== Sys2Proof/Machine/Cost.lean ====
section
/-! DEFINITION. How many permutations a command runs (R108, R139): read off the cases that run a duplex round. It is no
state of the core (R129), and no meaning reads it. -/

namespace Sys2Proof.Machine

/-- Permutations run by ABSORB_STEP: one in case A2, none otherwise. -/
def absorbPermutations (s : State) : Nat :=
  match absorbCase s with
  | .overflow => 1
  | .fill _ | .switch => 0

/-- Permutations run while a message is absorbed. -/
def absorbAllPermutations : List Nat → State → Nat
  | [], _ => 0
  | v :: m, s => absorbPermutations s + absorbAllPermutations m (absorbStep v s)

/-- Permutations run by at most n passes of SQUEEZE_STEP: one for each pass in case S1. -/
def squeezeLoopPermutations : Nat → State → Nat
  | 0, _ => 0
  | n + 1, s =>
    match squeezeCase s with
    | .run => 1 + squeezeLoopPermutations n (squeezeRun s)
    | .take _ _ => 0
    | .refill => squeezeLoopPermutations n { s with mode := .absorbing, buf := unsetBuffer s.cfg }

/-- Permutations run by SQUEEZE_STEP. -/
def squeezePermutations (s : State) : Nat := squeezeLoopPermutations 3 s

/-- Permutations run by a HASH that passes its checks. -/
def hashPermutations (m : List Nat) (s : State) : Nat :=
  absorbAllPermutations m s + squeezePermutations (absorbAll m s)

end Sys2Proof.Machine
end

