-- ==== Sys2Proof/Safety.lean ====
section
/-! DEFINITION. The terms claims are stated in: the invariant of the core's state (R17, R19, R21, R23, R24, R120), what a
response holds (R53, R58, R59), and the states a run can reach. -/

namespace Sys2Proof.Machine

/-! ### The invariant -/

/-- A row of T canonical elements of F. -/
abbrev RowSound (c : Config) (row : List Nat) : Prop := row.length = c.t ∧ ∀ x ∈ row, x < c.p

/-- What R7 and R8 ask of CFG and the core does not check (R133, U2), each as its rule states it. The tables are asked for where
T = RATE + 1: otherwise INIT answers SHAPE and no rule reads them (notes/assumptions/4.md). -/
structure ConfigSound (c : Config) : Prop where
  /-- P is prime (R8). -/
  prime : Nat.Prime c.p
  /-- FW ≥ bitlen(P-1) (R7). -/
  width : Nat.size (c.p - 1) ≤ c.fw
  /-- L_MAX ≤ 65535 (R7). -/
  lMax : c.lMax ≤ 65535
  /-- MDS is a T x T matrix over F (R7, R8). -/
  mds : c.t = c.rate + 1 → c.mds.length = c.t ∧ ∀ row ∈ c.mds, RowSound c row
  /-- The rows of RC are T-vectors over F (R7, R8). -/
  rc : c.t = c.rate + 1 → ∀ row ∈ c.rc, RowSound c row
  /-- SBOX is a map from F to F (R7, R65): a table has P elements of F. -/
  sbox : c.t = c.rate + 1 → ∀ xs, c.sbox = .table xs → xs.length = c.p ∧ ∀ x ∈ xs, x < c.p

/-- INIT's configuration checks all pass (R120). -/
abbrev initPasses (c : Config) : Prop := firstFault (initChecks c) = none

/-- Every element is a canonical element of F (R10). -/
abbrev Canonical (c : Config) (xs : List Nat) : Prop := ∀ x ∈ xs, x < c.p

/-- STATE has T lanes, each an element of F (R17). -/
abbrev LanesOk (c : Config) (lanes : List Nat) : Prop := lanes.length = c.t ∧ Canonical c lanes

/-- BUF has RATE slots, and a set slot holds an element of F (R19). -/
abbrev BufferOk (c : Config) (b : RateBuffer) : Prop :=
  b.length = c.rate ∧ ∀ o ∈ b, ∀ u ∈ o, u < c.p

/-- The set slots are slots 0 .. k-1 for some k (R21, Absorbing). -/
abbrev SetPrefix (c : Config) (b : RateBuffer) : Prop :=
  ∃ k, k ≤ c.rate ∧ ∀ i, i < c.rate → ((slot b i).isSome = true ↔ i < k)

/-- The set slots are slots k .. RATE-1 for some k (R21, Squeezing). -/
abbrev SetSuffix (c : Config) (b : RateBuffer) : Prop :=
  ∃ k, k ≤ c.rate ∧ ∀ i, i < c.rate → ((slot b i).isSome = true ↔ k ≤ i)

/-- The buffer shape invariant (R21). -/
abbrev BufferShape (s : State) : Prop :=
  (s.mode = .absorbing → SetPrefix s.cfg s.buf) ∧ (s.mode = .squeezing → SetSuffix s.cfg s.buf)

/-- FCODE is NONE exactly while FAULT = 0 (R23, R24). -/
abbrev FaultRecord (s : State) : Prop := s.fault = false ↔ s.fcode = .none

/-- The state an unused instance is in: exactly what INIT wrote (R22, R106). -/
abbrev Fresh (s : State) : Prop :=
  s.lanes = initialLanes s.cfg ∧ s.mode = .absorbing ∧ s.buf = unsetBuffer s.cfg

/-- The registers while an instance exists. -/
structure InstanceOk (s : State) : Prop where
  checked : initPasses s.cfg
  lanes : LanesOk s.cfg s.lanes
  buffer : BufferOk s.cfg s.buf
  shape : BufferShape s
  ready : s.lc = .ready → Fresh s
  consumed : s.lc = .consumed → s.mode = .squeezing

/-- The invariant of the core: the fault record is consistent and, while an instance exists, its registers are as the rules
leave them. While LC = UNINIT nothing is asked of STATE, BUF and MODE (R32). -/
structure Inv (s : State) : Prop where
  record : FaultRecord s
  live : s.lc ≠ .uninit → InstanceOk s

/-! ### Responses -/

/-- The number M of result words of an OK response (R53). -/
def resultCount (c : Config) : Op → Nat
  | .nop => 0
  | .status => 1
  | .init => 0
  | .absorb => 0
  | .squeeze => 1
  | .hash => 1
  | .perm => c.t
  | .fold => c.t
  | .capiv => 1
  | .padding => c.rate + 1

/-- The result words that carry field elements: none of STATUS's word, all but PADDING's mask word (R59). -/
def valueResults (c : Config) (op : Op) (ws : List Nat) : List Nat :=
  match op with
  | .status => []
  | .padding => ws.take c.rate
  | .nop | .init | .absorb | .squeeze | .hash | .perm | .fold | .capiv => ws

/-- The fault codes as numbers, written out from the table of R118. -/
def faultNumber : FaultCode → Nat
  | .none => 0
  | .rcLen => 1
  | .rfOdd => 2
  | .msgLen => 3
  | .lUnsupported => 4
  | .notInit => 5
  | .consumed => 6
  | .illegalCmd => 7
  | .badOperand => 8
  | .hashAfterDuplex => 9
  | .shape => 10

/-! ### When a fault applies (R118 to R123) -/

/-- The count N an opcode requires; none for HASH, where any N decodes (R50). -/
def requiredCount (c : Config) : Op → Option Nat
  | .nop | .status | .init | .squeeze | .capiv | .padding => some 0
  | .absorb => some 1
  | .hash => none
  | .perm => some c.t
  | .fold => some (c.t + c.rate + 1)

/-- The value words of a frame (R51). -/
def frameValues (c : Config) (o : Op) (ws : List Nat) : List Nat :=
  if o = .fold then ws.take (c.t + c.rate) else ws

/-- The conditions under which a frame deserves a fault code, each as its rule states it, whatever other faults apply:
R119 (with R39's padding bits), R121, R120 and R122. -/
def FaultApplies (s : State) (f : Frame) : FaultCode → Prop
  | .none => False
  | .illegalCmd => Op.ofByte f.opc = none
  | .badOperand =>
    ∃ o, Op.ofByte f.opc = some o ∧
      (f.rsv ≠ 0 ∨ (∃ n, requiredCount s.cfg o = some n ∧ f.words.length ≠ n) ∨
        (∃ w ∈ frameValues s.cfg o f.words, s.cfg.p ≤ w) ∨ (∃ w ∈ f.words, 2 ^ s.cfg.fw ≤ w) ∨
        (o = .fold ∧ ∃ k, f.words[s.cfg.t + s.cfg.rate]? = some k ∧ 2 ^ s.cfg.rate ≤ k))
  | .notInit =>
    s.lc = .uninit ∧
      ∃ o ∈ [Op.absorb, .squeeze, .hash, .perm, .fold, .capiv, .padding], Op.ofByte f.opc = some o
  | .consumed => s.lc = .consumed ∧ ∃ o ∈ [Op.absorb, .squeeze, .hash], Op.ofByte f.opc = some o
  | .hashAfterDuplex => s.lc = .duplex ∧ Op.ofByte f.opc = some .hash
  | .shape =>
    Op.ofByte f.opc = some .init ∧
      ¬(1 ≤ s.cfg.rate ∧ s.cfg.t = s.cfg.rate + 1 ∧ s.cfg.rate ≤ 65535 ∧ s.cfg.rate ≤ s.cfg.fw)
  | .rfOdd => Op.ofByte f.opc = some .init ∧ s.cfg.rf % 2 ≠ 0
  | .rcLen => Op.ofByte f.opc = some .init ∧ s.cfg.rc.length ≠ s.cfg.rf + s.cfg.rp
  | .lUnsupported => Op.ofByte f.opc = some .init ∧ s.cfg.lMax < s.cfg.l
  | .msgLen => Op.ofByte f.opc = some .hash ∧ f.words.length ≠ s.cfg.l

/-- The order in which faults are raised (R123, entries 1 to 10). -/
def faultPriority : List FaultCode :=
  [.illegalCmd, .badOperand, .notInit, .consumed, .hashAfterDuplex, .shape, .rfOdd, .rcLen, .lUnsupported, .msgLen]

/-- The table of R104, cell by cell: LC after a command that does not fault for another reason, or the lifecycle fault. -/
def lifecycleTable : Op → Lifecycle → Except FaultCode Lifecycle
  | .init, _ => .ok .ready
  | .nop, lc => .ok lc
  | .status, lc => .ok lc
  | .absorb, .uninit => .error .notInit
  | .absorb, .ready => .ok .duplex
  | .absorb, .duplex => .ok .duplex
  | .absorb, .consumed => .error .consumed
  | .squeeze, .uninit => .error .notInit
  | .squeeze, .ready => .ok .duplex
  | .squeeze, .duplex => .ok .duplex
  | .squeeze, .consumed => .error .consumed
  | .hash, .uninit => .error .notInit
  | .hash, .ready => .ok .consumed
  | .hash, .duplex => .error .hashAfterDuplex
  | .hash, .consumed => .error .consumed
  | .perm, .uninit => .error .notInit
  | .perm, lc => .ok lc
  | .fold, .uninit => .error .notInit
  | .fold, lc => .ok lc
  | .capiv, .uninit => .error .notInit
  | .capiv, lc => .ok lc
  | .padding, .uninit => .error .notInit
  | .padding, lc => .ok lc

/-! ### Sponge blocks -/

/-- The number of blocks of a message: ceil(N / RATE), and one for the empty message (R108). -/
def blockCount (c : Config) (m : List Nat) : Nat := max 1 ((m.length + c.rate - 1) / c.rate)

/-- The blocks of a message: block k is the words k·RATE .. k·RATE+RATE-1, the last one perhaps shorter. -/
def blocks (c : Config) (m : List Nat) : List (List Nat) :=
  (List.range (blockCount c m)).map fun k => (m.drop (k * c.rate)).take c.rate

/-- STATE after the blocks of a message have each been folded in and permuted, from the state INIT leaves. -/
def spongeLanes (c : Config) (m : List Nat) : List Nat :=
  (blocks c m).foldl (fun lanes b => permute c (fold c lanes (b.map some))) (initialLanes c)

/-! ### Runs -/

/-- A sequence of commands run one after another, stopping at the first that does not answer a next state (R45). -/
def execAll : List Instr → State → Host.Outcome State Fault Refusal
  | [], s => .next s
  | i :: is, s =>
    match exec i s with
    | .next t => execAll is t
    | .fault r => .fault r
    | .refused r => .refused r

/-- The states a core with configuration c can come to: from reset, by its own steps, by the host sending bytes, and by the
reset signal (R45, R131). -/
inductive Reachable (c : Config) : State → Prop where
  | start : Reachable c (State.resetWith c)
  | step {s t : State} : Reachable c s → step s = .next t → Reachable c t
  | send {s : State} (bs : List Byte) : Reachable c s → Reachable c (hostSend bs s)
  | signal {s : State} : Reachable c s → Reachable c (hostReset s)

/-- No fault has been recorded (R126). -/
abbrev NoFault (s : State) : Prop := s.fault = false

/-- The next state of an outcome, when there is one. -/
def nextOf : Host.Outcome State Fault Refusal → Option State
  | .next s => some s
  | .fault _ => none
  | .refused _ => none

end Sys2Proof.Machine
end

