-- ==== Sys2Proof/Certificates/Slice0/Obligations.lean ====
section
/-! DEFINITION. What is claimed of the model, for the provers. Each statement's docstring names the rule or the section of the
spec it formalises. `configAdmitted` is the model's test of the constraints R7 and R8 put on CFG; what it tests is stated in
OnlyForeignConfigurationIsRefused. No statement needs more of CFG than it names. -/

open Sys2Proof Sys2Proof.Machine

/-! ### The channel and the decoder -/

/-- R39, D4 (spec/20_memory.md part 2): a word of FW bits travels as ceil(FW/8) bytes, byte k carrying bits [8k+7 : 8k] under LE and
the same bytes reversed under BE, and the receiver reads it back. -/
def Obligations.WordTravelsAsItsBytes : Prop :=
  ∀ (c : Config) (w : Nat), w < 2 ^ c.fw →
    (∀ n, c.fw ≤ 8 * n ↔ c.elemBytes ≤ n) ∧
    (bytesOfWord .le c.elemBytes w).length = c.elemBytes ∧
    (∀ k, k < c.elemBytes →
      (bytesOfWord .le c.elemBytes w)[k]? = some (BitVec.ofNat 8 (w / 2 ^ (8 * k)))) ∧
    bytesOfWord .be c.elemBytes w = (bytesOfWord .le c.elemBytes w).reverse ∧
    (∀ o, wordOfBytes o (bytesOfWord o c.elemBytes w) = w)

/-- R48, R49, R61 (spec/30_encoding.md parts 1 and 5): the receiver reads from an encoded command, whatever follows it on the channel,
exactly that command, with every operand at every value its word can hold. -/
def Obligations.EncodedCommandIsReceived : Prop :=
  ∀ (c : Config) (i : Instr) (rest : List Byte), i.sendable c = true →
    receive c (encode c i ++ rest) = .command i rest

/-- R48, R49, R55, R56 (spec/30_encoding.md parts 1 to 3): a command has one spelling. Whatever bytes the receiver reads a command from
are the encoder's bytes of it. -/
def Obligations.ReceivedCommandHasOneSpelling : Prop :=
  ∀ (c : Config) (bs rest : List Byte) (i : Instr),
    receive c bs = .command i rest → bs = encode c i ++ rest

/-- R54 (spec/30_encoding.md part 2): the length of every frame is known from its header alone, whatever its opcode, and a frame is
there exactly when its header and its N words are. -/
def Obligations.FrameLengthFollowsFromHeader : Prop :=
  ∀ (c : Config) (bs : List Byte),
    (bs.length < 4 → takeFrame c bs = none) ∧
    (4 ≤ bs.length →
      let n := Header.count (BitVec.ofNat 32 (wordOfBytes c.byteOrder (bs.take 4)))
      (takeFrame c bs = none ↔ bs.length < 4 + n * c.elemBytes) ∧
      ∀ f rest, takeFrame c bs = some (f, rest) →
        f.words.length = n ∧ rest = bs.drop (4 + n * c.elemBytes))

/-- R41 (spec/20_memory.md part 2): until a whole frame has arrived the core waits, with no change of state. -/
def Obligations.IncompleteFrameLeavesCoreWaiting : Prop :=
  ∀ s : State, s.rst = false → configAdmitted s.cfg = true →
    (s.rx.length < 4 ∨
      s.rx.length < 4 + Header.count (BitVec.ofNat 32 (wordOfBytes s.cfg.byteOrder (s.rx.take 4))) * s.cfg.elemBytes) →
    step s = .next s

/-- R43, R45, R54 (spec/20_memory.md part 3): with no reset pending, a step takes the first frame off the channel and runs the command
it decodes to, or rejects it. -/
def Obligations.StepRunsReceivedCommand : Prop :=
  ∀ (s : State) (rest : List Byte), s.rst = false → configAdmitted s.cfg = true →
    (∀ i, receive s.cfg s.rx = .command i rest → step s = exec i { s with rx := rest }) ∧
    (∀ opc e, receive s.cfg s.rx = .rejected opc e rest →
      step s = .next (rejectFrame opc e { s with rx := rest }))

/-- R49, R53 (spec/30_encoding.md part 2): header words written out from the opcode map decode to their commands. Two choices of the
model show in it. The operand words of the 39- and 46-bit words lie 7 bits wide, the FW of TOY-A, whose configuration decodeTableWord
takes (DESIGN CHOICE, notes/assumptions/2.md). And the bare headers 0x00010010, 0x00030030 and 0x00060031, which announce operand
words, decode because decodeTableWord fills those with zeros (DEDUCED, notes/assumptions/7.md); by R41 such a header alone waits. -/
def Obligations.WrittenHeadersDecode : Prop :=
  decodeTableWord 32 0x00000000 = some .nop ∧ decodeTableWord 32 0x00000001 = some .status ∧
  decodeTableWord 32 0x00000002 = some .init ∧ decodeTableWord 32 0x00010010 = some (.absorb 0) ∧
  decodeTableWord 39 (0x00010010 + 5 * 2 ^ 32) = some (.absorb 5) ∧
  decodeTableWord 32 0x00000011 = some .squeeze ∧
  decodeTableWord 46 (0x00020020 + 6 * 2 ^ 32 + 42 * 2 ^ 39) = some (.hash [6, 42]) ∧
  decodeTableWord 32 0x00030030 = some (.perm [0, 0, 0]) ∧
  decodeTableWord 32 0x00060031 = some (.fold [0, 0, 0, 0, 0, 0]) ∧
  decodeTableWord 32 0x00000032 = some .capiv ∧ decodeTableWord 32 0x00000033 = some .padding ∧
  decodeTableWord 32 0x00000012 = none ∧ decodeTableWord 32 0x00000111 = none ∧ decodeTableWord 32 0x00010000 = none

/-- R55: the opcodes outside the map are exactly the listed ranges, and a frame with one faults with ILLEGAL_CMD. -/
def Obligations.ReservedOpcodesAreIllegal : Prop :=
  (∀ b : BitVec 8, Op.ofByte b = none ↔
    ((0x03 ≤ b.toNat ∧ b.toNat ≤ 0x0F) ∨ (0x12 ≤ b.toNat ∧ b.toNat ≤ 0x1F) ∨
      (0x21 ≤ b.toNat ∧ b.toNat ≤ 0x2F) ∨ (0x34 ≤ b.toNat ∧ b.toNat ≤ 0xFF))) ∧
  ∀ (s : State) (f : Frame) (rest : List Byte),
    s.rst = false → configAdmitted s.cfg = true → s.fault = false → takeFrame s.cfg s.rx = some (f, rest) →
    Op.ofByte f.opc = none →
    step s = .next { s with
      rx := rest, fault := true, fcode := .illegalCmd, tx := s.tx ++ [⟨f.opc, .fault, .illegalCmd, []⟩] }

/-- R56: in a frame with a defined opcode, a nonzero RSV, a wrong count (HASH excepted), a non-canonical value word or a FOLD mask of
2^RATE or more faults with BAD_OPERAND. -/
def Obligations.MalformedFrameIsBadOperand : Prop :=
  ∀ (s : State) (f : Frame) (rest : List Byte) (o : Op),
    s.rst = false → configAdmitted s.cfg = true → s.fault = false → takeFrame s.cfg s.rx = some (f, rest) →
    Op.ofByte f.opc = some o →
    (f.rsv ≠ 0 ∨ (∃ n, requiredCount s.cfg o = some n ∧ f.words.length ≠ n) ∨
      (∃ w ∈ frameValues s.cfg o f.words, s.cfg.p ≤ w) ∨
      (o = .fold ∧ ∃ k, f.words[s.cfg.t + s.cfg.rate]? = some k ∧ 2 ^ s.cfg.rate ≤ k)) →
    step s = .next { s with
      rx := rest, fault := true, fcode := .badOperand, tx := s.tx ++ [⟨f.opc, .fault, .badOperand, []⟩] }

/-- R38: an operand word with a bit above FW-1 or a value word of P or more is refused with BAD_OPERAND, never reduced; every result
word that carries a field element is canonical; and every result word fits FW bits (STATUS's, which is a 32-bit word, apart). -/
def Obligations.WordsAreCanonicalBothWays : Prop :=
  (∀ (s : State) (i : Instr), s.fault = false →
    ((∃ w ∈ i.words, 2 ^ s.cfg.fw ≤ w) ∨ (∃ w ∈ i.valueWords s.cfg, s.cfg.p ≤ w)) →
    exec i s = .next { s with
      fault := true, fcode := .badOperand, tx := s.tx ++ [⟨i.op.code, .fault, .badOperand, []⟩] }) ∧
  (∀ (s t : State) (i : Instr), Inv s → configAdmitted s.cfg = true → exec i s = .next t →
    ∃ r : Response, t.tx = s.tx ++ [r] ∧ (∀ w ∈ valueResults s.cfg i.op r.words, w < s.cfg.p) ∧
      (i.op ≠ .status → ∀ w ∈ r.words, w < 2 ^ s.cfg.fw))

/-! ### Faults -/

/-- R123 (with the conditions of R119 to R122): a faulted core refuses the frame before any check; else, of the faults that apply to it, the
first in the order of R123 is raised; and a frame to which none applies raises none. -/
def Obligations.FirstApplicableFaultIsRaised : Prop :=
  ∀ (s : State) (f : Frame) (rest : List Byte),
    Inv s → s.rst = false → configAdmitted s.cfg = true → takeFrame s.cfg s.rx = some (f, rest) →
    (s.fault = true → ¬(f.opc = 0x01 ∧ f.rsv = 0 ∧ f.words = []) →
      step s = .next { s with rx := rest, tx := s.tx ++ [⟨f.opc, .refused, s.fcode, []⟩] }) ∧
    (s.fault = false →
      (∀ pre code post, faultPriority = pre ++ code :: post → FaultApplies s f code →
        (∀ e ∈ pre, ¬FaultApplies s f e) →
        step s = .next { s with
          rx := rest, fault := true, fcode := code, tx := s.tx ++ [⟨f.opc, .fault, code, []⟩] }) ∧
      ((∀ code ∈ faultPriority, ¬FaultApplies s f code) → ∃ t, step s = .next t ∧ t.fault = false ∧ t.fcode = s.fcode))

/-- R124: a step that records a fault sets FAULT and FCODE, sends a FAULT response without words that echoes OPC, and changes
nothing else but the frame taken off the channel. -/
def Obligations.FaultTakingChangesOnlyTheRecord : Prop :=
  ∀ s t : State, s.fault = false → step s = .next t → t.fault = true →
    ∃ opc code rest, code ≠ .none ∧
      t = { s with rx := rest, fault := true, fcode := code, tx := s.tx ++ [⟨opc, .fault, code, []⟩] } ∧
      ∃ f, takeFrame s.cfg s.rx = some (f, rest) ∧ opc = f.opc

/-- R125: while FAULT = 1 every frame but a STATUS frame with RSV = 0 and N = 0 is read whole and refused, with no change of
state; that STATUS is answered with its STATUS word. -/
def Obligations.FaultedCoreAnswersOnlyStatus : Prop :=
  ∀ (s : State) (f : Frame) (rest : List Byte),
    s.rst = false → configAdmitted s.cfg = true → s.fault = true → takeFrame s.cfg s.rx = some (f, rest) →
    (¬(f.opc = 0x01 ∧ f.rsv = 0 ∧ f.words = []) →
      step s = .next { s with rx := rest, tx := s.tx ++ [⟨f.opc, .refused, s.fcode, []⟩] }) ∧
    (f.opc = 0x01 ∧ f.rsv = 0 ∧ f.words = [] →
      step s = .next { s with rx := rest, tx := s.tx ++ [⟨0x01, .ok, s.fcode, [(statusWord s).toNat]⟩] })

/-- R24 (and R23): FCODE is 0 while FAULT = 0; the step that sets FAULT leaves in FCODE the code it answers with; a recorded code is never
overwritten; and only reset clears FAULT. -/
def Obligations.FirstFaultCodeStaysUntilReset : Prop :=
  ∀ (c : Config) (s t : State), Reachable c s → step s = .next t →
    (s.fault = false → s.fcode = .none ∧
      (t.fault = true → t.fcode ≠ .none ∧ ∃ opc, t.tx = s.tx ++ [⟨opc, .fault, t.fcode, []⟩])) ∧
    (s.fault = true → s.fcode ≠ .none ∧ ((t.fault = true ∧ t.fcode = s.fcode) ∨ s.rst = true))

/-- R121: the lifecycle faults, and the three commands that raise none. -/
def Obligations.LifecycleFaultsAreRaised : Prop :=
  ∀ (s : State) (i : Instr), s.fault = false → i.operandsOk s.cfg = true →
    (s.lc = .uninit → i.op ∈ [Op.absorb, .squeeze, .hash, .perm, .fold, .capiv, .padding] →
      exec i s = .next { s with
        fault := true, fcode := .notInit, tx := s.tx ++ [⟨i.op.code, .fault, .notInit, []⟩] }) ∧
    (s.lc = .consumed → i.op ∈ [Op.absorb, .squeeze, .hash] →
      exec i s = .next { s with
        fault := true, fcode := .consumed, tx := s.tx ++ [⟨i.op.code, .fault, .consumed, []⟩] }) ∧
    (s.lc = .duplex → i.op = .hash →
      exec i s = .next { s with
        fault := true, fcode := .hashAfterDuplex, tx := s.tx ++ [⟨i.op.code, .fault, .hashAfterDuplex, []⟩] }) ∧
    (i.op ∈ [Op.nop, .status, .init] → s.fcode = .none →
      ∃ t, exec i s = .next t ∧ t.fcode ∉ [FaultCode.notInit, .consumed, .hashAfterDuplex])

/-- R122: HASH with N ≠ L faults with MSG_LEN at entry, and nothing is absorbed. -/
def Obligations.WrongMessageLengthFaultsAtEntry : Prop :=
  ∀ (s : State) (m : List Nat), s.fault = false → s.lc = .ready → (Instr.hash m).operandsOk s.cfg = true →
    m.length ≠ s.cfg.l →
    exec (.hash m) s = .next { s with
      fault := true, fcode := .msgLen, tx := s.tx ++ [⟨0x20, .fault, .msgLen, []⟩] }

/-- R120: INIT's checks in order, the first that fails raising its fault; and a CFG that fails one never reaches READY. -/
def Obligations.InitChecksConfigurationInOrder : Prop :=
  (∀ s : State, s.fault = false →
    exec .init s =
      if ¬(1 ≤ s.cfg.rate ∧ s.cfg.t = s.cfg.rate + 1 ∧ s.cfg.rate ≤ 65535 ∧ s.cfg.rate ≤ s.cfg.fw) then
        .next { s with fault := true, fcode := .shape, tx := s.tx ++ [⟨0x02, .fault, .shape, []⟩] }
      else if s.cfg.rf % 2 ≠ 0 then
        .next { s with fault := true, fcode := .rfOdd, tx := s.tx ++ [⟨0x02, .fault, .rfOdd, []⟩] }
      else if s.cfg.rc.length ≠ s.cfg.rf + s.cfg.rp then
        .next { s with fault := true, fcode := .rcLen, tx := s.tx ++ [⟨0x02, .fault, .rcLen, []⟩] }
      else if s.cfg.lMax < s.cfg.l then
        .next { s with fault := true, fcode := .lUnsupported, tx := s.tx ++ [⟨0x02, .fault, .lUnsupported, []⟩] }
      else .next { s with
        lanes := List.replicate s.cfg.rate 0 ++ [(s.cfg.l * 2 ^ s.cfg.capShift + s.cfg.outTag) % s.cfg.p],
        mode := .absorbing, buf := List.replicate s.cfg.rate none, lc := .ready,
        tx := s.tx ++ [⟨0x02, .ok, s.fcode, []⟩] }) ∧
  (∀ (c : Config) (s : State), Reachable c s → s.lc ≠ .uninit →
    (1 ≤ c.rate ∧ c.t = c.rate + 1 ∧ c.rate ≤ 65535 ∧ c.rate ≤ c.fw) ∧ c.rf % 2 = 0 ∧
      c.rc.length = c.rf + c.rp ∧ c.l ≤ c.lMax)

/-! ### Reset and the lifecycle -/

/-- R131, R32 (spec/70_reset_and_hazards.md part 1): the reset signal comes before any frame, and leaves LC = UNINIT, FAULT = 0, FCODE = 0
and CFG as it was. That waiting bytes are dropped and sent responses stay is the model's reading (notes/assumptions/5.md). -/
def Obligations.ResetSignalClearsControlState : Prop :=
  ∀ s : State, s.rst = true →
    ∃ t, step s = .next t ∧ t.lc = .uninit ∧ t.fault = false ∧ t.fcode = .none ∧ t.cfg = s.cfg ∧
      t.rst = false ∧ t.rx = [] ∧ t.tx = s.tx

/-- R33: what STATE, BUF and MODE hold while LC = UNINIT can never reach a result: two cores that differ in nothing else stay so, and a
step that leaves UNINIT makes them equal. -/
def Obligations.UnspecifiedResetValuesNeverReachAResult : Prop :=
  ∀ (s t : State) (lanes : List Nat) (buf : RateBuffer) (mode : Mode), s.lc = .uninit → step s = .next t →
    ∃ t', step { s with lanes := lanes, buf := buf, mode := mode } = .next t' ∧
      (t' = t ∨ t' = { t with lanes := lanes, buf := buf, mode := mode }) ∧ (t.lc ≠ .uninit → t' = t)

/-- R104: the lifecycle table. A command that faults leaves LC unchanged; one that does not moves LC as its cell says; and where the cell is
a fault, a command with good operands raises that fault. -/
def Obligations.LifecycleFollowsItsTable : Prop :=
  ∀ (s t : State) (i : Instr), Inv s → s.fault = false → exec i s = .next t →
    (t.fault = true → t.lc = s.lc) ∧
    (t.fault = false → lifecycleTable i.op s.lc = .ok t.lc) ∧
    (∀ code, lifecycleTable i.op s.lc = .error code → i.operandsOk s.cfg = true → t.fault = true ∧ t.fcode = code)

/-! ### What each command does -/

/-- R110 (spec/43_hash_control.md part 4): NOP answers OK, in every lifecycle, and changes nothing. -/
def Obligations.NopChangesNothing : Prop :=
  ∀ s : State, s.fault = false →
    exec .nop s = .next { s with tx := s.tx ++ [⟨0x00, .ok, s.fcode, []⟩] }

/-- R60: the STATUS word, field by field, FCODE by its number in R118. STATUS is answered in every state, a faulted one too, and changes nothing. -/
def Obligations.StatusWordShowsControlState : Prop :=
  ∀ s : State, Inv s → ∃ w : BitVec 32,
    exec .status s = .next { s with tx := s.tx ++ [⟨0x01, .ok, s.fcode, [w.toNat]⟩] } ∧
    (w.extractLsb' 0 3).toNat =
      (match s.lc with | .uninit => 0 | .ready => 1 | .duplex => 2 | .consumed => 3) ∧
    w.getLsbD 3 = (s.lc != .uninit && s.mode == .squeezing) ∧
    w.getLsbD 4 = s.fault ∧
    w.extractLsb' 5 3 = 0 ∧
    (w.extractLsb' 8 4).toNat = faultNumber s.fcode ∧
    w.extractLsb' 12 4 = 0 ∧
    (w.extractLsb' 16 16).toNat = (if s.lc = .uninit then 0 else s.buf.countP Option.isSome)

/-- R106, R34, R112 (spec/43_hash_control.md parts 2 and 5): INIT of a core whose CFG passes the checks builds a fresh instance from any lifecycle, two
INITs leave what one leaves, and nothing of the old instance shows in the new one. -/
def Obligations.InitBuildsFreshInstance : Prop :=
  ∀ s : State, s.fault = false → initPasses s.cfg →
    ∃ t, exec .init s = .next t ∧ t = { s with
        lanes := List.replicate s.cfg.rate 0 ++ [(s.cfg.l * 2 ^ s.cfg.capShift + s.cfg.outTag) % s.cfg.p],
        mode := .absorbing, buf := List.replicate s.cfg.rate none, lc := .ready,
        tx := s.tx ++ [⟨0x02, .ok, s.fcode, []⟩] } ∧
      exec .init t = .next { t with tx := t.tx ++ [⟨0x02, .ok, t.fcode, []⟩] } ∧
      ∀ lanes buf mode lc,
        exec .init { s with lanes := lanes, buf := buf, mode := mode, lc := lc } = exec .init s

/-- R78: with an unset slot in an Absorbing buffer, ABSORB fills the first one; STATE is unchanged. -/
def Obligations.AbsorbFillsFirstUnsetSlot : Prop :=
  ∀ (s : State) (v : Nat) (i : Nat), s.fault = false → (s.lc = .ready ∨ s.lc = .duplex) →
    v < s.cfg.p → v < 2 ^ s.cfg.fw → s.mode = .absorbing →
    s.buf[i]? = some none → (∀ j, j < i → s.buf[j]? ≠ some none) →
    exec (.absorb v) s = .next { s with
      buf := s.buf.set i (some v), lc := .duplex, tx := s.tx ++ [⟨0x10, .ok, s.fcode, []⟩] } ∧
    absorbPermutations s = 0

/-- R79: with a full Absorbing buffer, ABSORB runs a duplex round on it, keeps only its effect on STATE, and starts a fresh buffer. -/
def Obligations.AbsorbOverflowRunsDuplexRound : Prop :=
  ∀ (s : State) (v : Nat), s.fault = false → (s.lc = .ready ∨ s.lc = .duplex) →
    v < s.cfg.p → v < 2 ^ s.cfg.fw → s.mode = .absorbing → (∀ o ∈ s.buf, o ≠ none) →
    exec (.absorb v) s = .next { s with
      lanes := permute s.cfg (fold s.cfg s.lanes s.buf), mode := .absorbing,
      buf := some v :: List.replicate (s.cfg.rate - 1) none, lc := .duplex,
      tx := s.tx ++ [⟨0x10, .ok, s.fcode, []⟩] }

/-- R80: in Squeezing, ABSORB drops the buffer, whatever it holds, and starts a fresh one; STATE is unchanged. -/
def Obligations.AbsorbDropsUnreadOutput : Prop :=
  ∀ (s : State) (v : Nat), s.fault = false → (s.lc = .ready ∨ s.lc = .duplex) →
    v < s.cfg.p → v < 2 ^ s.cfg.fw → s.mode = .squeezing →
    exec (.absorb v) s = .next { s with
      mode := .absorbing, buf := some v :: List.replicate (s.cfg.rate - 1) none, lc := .duplex,
      tx := s.tx ++ [⟨0x10, .ok, s.fcode, []⟩] } ∧
    absorbPermutations s = 0

/-- R28, R88 (spec/10_state.md part 5): what ABSORB discards is unobservable: with the unread output of a Squeezing buffer changed, ABSORB gives the
same state; and what it leaves in BUF after an overflow is the value absorbed and nothing of the round's output. -/
def Obligations.DiscardedOutputIsUnobservable : Prop :=
  (∀ (s : State) (v : Nat) (b : RateBuffer), s.fault = false → (s.lc = .ready ∨ s.lc = .duplex) →
    v < s.cfg.p → v < 2 ^ s.cfg.fw → s.mode = .squeezing →
    exec (.absorb v) { s with buf := b } = exec (.absorb v) s) ∧
  (∀ (s t : State) (v : Nat), s.fault = false → s.mode = .absorbing → (∀ o ∈ s.buf, o ≠ none) →
    exec (.absorb v) s = .next t → t.fault = false →
    t.lanes = permute s.cfg (fold s.cfg s.lanes s.buf) ∧ (∀ o ∈ t.buf, o = some v ∨ o = none) ∧
      t.buf.countP Option.isSome = 1)

/-- R81: SQUEEZE in Absorbing, its buffer full, partly filled or empty, runs a duplex round on it, moves to Squeezing with the rate lanes, and
returns lane 0 in the same command. -/
def Obligations.SqueezeFromAbsorbingPermutes : Prop :=
  ∀ s : State, s.fault = false → (s.lc = .ready ∨ s.lc = .duplex) → s.mode = .absorbing → 1 ≤ s.cfg.rate →
    let y := permute s.cfg (fold s.cfg s.lanes s.buf)
    exec .squeeze s = .next { s with
      lanes := y, mode := .squeezing,
      buf := (List.range s.cfg.rate).map (fun i => if i = 0 then none else some (lane y i)), lc := .duplex,
      tx := s.tx ++ [⟨0x11, .ok, s.fcode, [lane y 0]⟩] }

/-- R82: in Squeezing with a set slot, SQUEEZE takes and clears the first one and returns its value; STATE is unchanged. -/
def Obligations.SqueezeTakesFirstSetSlot : Prop :=
  ∀ (s : State) (i : Nat) (u : Nat), s.fault = false → (s.lc = .ready ∨ s.lc = .duplex) → s.mode = .squeezing →
    s.buf[i]? = some (some u) → (∀ j, j < i → s.buf[j]? = some none) →
    exec .squeeze s = .next { s with
      buf := s.buf.set i none, lc := .duplex, tx := s.tx ++ [⟨0x11, .ok, s.fcode, [u]⟩] }

/-- R83: in Squeezing with an empty buffer, SQUEEZE permutes the state as it stands and returns its lane 0. -/
def Obligations.SqueezeFromEmptyPermutesAsItStands : Prop :=
  ∀ s : State, s.fault = false → (s.lc = .ready ∨ s.lc = .duplex) → s.mode = .squeezing → 1 ≤ s.cfg.rate →
    s.lanes.length = s.cfg.t → (∀ o ∈ s.buf, o = none) →
    let y := permute s.cfg s.lanes
    exec .squeeze s = .next { s with
      lanes := y, mode := .squeezing,
      buf := (List.range s.cfg.rate).map (fun i => if i = 0 then none else some (lane y i)), lc := .duplex,
      tx := s.tx ++ [⟨0x11, .ok, s.fcode, [lane y 0]⟩] }

/-- R84: SQUEEZE_STEP returns within three passes and runs at most one permutation, and what it returns after a permutation is lane 0 of the
new state; with RATE = 0 no number of passes ends it from an Absorbing state; but no run reaches an instance with RATE = 0. That
SQUEEZE then ends in the fault squeezeNeverEnds is the model's choice (DESIGN CHOICE, notes/assumptions/10.md): R84 says only that the
loop would never end and that the core never executes it. -/
def Obligations.SqueezeEndsWithinThreePasses : Prop :=
  (∀ s : State, 1 ≤ s.cfg.rate →
    ∃ u t, squeezeLoop 3 s = some (u, t) ∧ squeezePermutations s ≤ 1 ∧
      (squeezePermutations s = 1 → u = lane t.lanes 0) ∧ (squeezePermutations s = 0 → t.lanes = s.lanes)) ∧
  (∀ s : State, s.cfg.rate = 0 → s.mode = .absorbing →
    (∀ n, squeezeLoop n s = none) ∧
    (s.fault = false → (s.lc = .ready ∨ s.lc = .duplex) → exec .squeeze s = .fault .squeezeNeverEnds)) ∧
  (∀ (c : Config) (s : State), Reachable c s → s.lc ≠ .uninit → 1 ≤ s.cfg.rate)

/-- R107 with R77 to R84 (spec/43_hash_control.md part 3): HASH of a READY instance is the sponge over blocks of RATE words: STATE becomes the result of
folding in and permuting each block in turn, lane 0 is the response, and the other rate lanes stay in a Squeezing buffer. -/
def Obligations.HashIsSpongeOverBlocks : Prop :=
  ∀ (s : State) (m : List Nat), Inv s → configAdmitted s.cfg = true → s.fault = false → s.lc = .ready →
    m.length = s.cfg.l → (∀ w ∈ m, w < s.cfg.p) →
    let y := spongeLanes s.cfg m
    exec (.hash m) s = .next { s with
      lanes := y, mode := .squeezing,
      buf := (List.range s.cfg.rate).map (fun i => if i = 0 then none else some (lane y i)), lc := .consumed,
      tx := s.tx ++ [⟨0x20, .ok, s.fcode, [lane y 0]⟩] }

/-- R75 (spec/40_permutation.md part 3): PERM of T canonical words returns their permutation, whatever the sponge holds, and changes
nothing. -/
def Obligations.PermReturnsThePermutation : Prop :=
  ∀ (s : State) (x : List Nat), s.fault = false → s.lc ≠ .uninit → x.length = s.cfg.t →
    (∀ w ∈ x, w < s.cfg.p ∧ w < 2 ^ s.cfg.fw) →
    exec (.perm x) s = .next { s with tx := s.tx ++ [⟨0x30, .ok, s.fcode, permute s.cfg x⟩] }

/-- R102 (spec/42_domain.md part 6): FOLD adds, for each set mask bit, the buffer value into its rate lane, returns T words, and changes nothing;
the capacity word comes back unchanged. -/
def Obligations.FoldAddsMaskedValues : Prop :=
  ∀ (s : State) (x b : List Nat) (k : Nat), s.fault = false → s.lc ≠ .uninit →
    x.length = s.cfg.t → b.length = s.cfg.rate → s.cfg.t = s.cfg.rate + 1 →
    (∀ w ∈ x ++ b, w < s.cfg.p ∧ w < 2 ^ s.cfg.fw) → k < 2 ^ s.cfg.rate → s.cfg.rate ≤ s.cfg.fw →
    ∃ y : List Nat,
      exec (.fold (x ++ b ++ [k])) s = .next { s with tx := s.tx ++ [⟨0x31, .ok, s.fcode, y⟩] } ∧
      y.length = s.cfg.t ∧ y[s.cfg.rate]? = x[s.cfg.rate]? ∧
      ∀ i (xi bi : Nat), x[i]? = some xi → b[i]? = some bi →
        y[i]? = some (if k.testBit i then (xi + bi) % s.cfg.p else xi)

/-- R100, R94 (spec/42_domain.md parts 2 and 6): CAPIV returns (L · 2^CAP_SHIFT + OUT_TAG) mod P in every lifecycle but UNINIT. -/
def Obligations.CapivReturnsCapacityValue : Prop :=
  ∀ s : State, s.fault = false → s.lc ≠ .uninit →
    exec .capiv s = .next { s with
      tx := s.tx ++ [⟨0x32, .ok, s.fcode, [(s.cfg.l * 2 ^ s.cfg.capShift + s.cfg.outTag) % s.cfg.p]⟩] }

/-- R101, R95 (spec/42_domain.md parts 3 and 6): PADDING returns RATE zero words and a mask whose bit i is set exactly for L ≤ i < RATE. -/
def Obligations.PaddingReturnsZerosAndMask : Prop :=
  ∀ s : State, s.fault = false → s.lc ≠ .uninit →
    ∃ k : Nat, exec .padding s = .next { s with
        tx := s.tx ++ [⟨0x33, .ok, s.fcode, List.replicate s.cfg.rate 0 ++ [k]⟩] } ∧
      (∀ i, k.testBit i = (decide (s.cfg.l ≤ i) && decide (i < s.cfg.rate))) ∧
      k + 2 ^ (min s.cfg.l s.cfg.rate) = 2 ^ s.cfg.rate

/-- The frame of every command (R29, R43, R44; spec/10_state.md part 6, spec/20_memory.md part 3): CFG, the receive channel and the reset
line are never touched; FAULT and FCODE change only when a fault is raised; STATE, BUF, MODE and LC only by INIT, ABSORB, SQUEEZE and HASH;
ABSORB writes STATE only in case A2; and the pure commands send a response and change nothing else unless they fault. -/
def Obligations.CommandsTouchOnlyTheirRegisters : Prop :=
  ∀ (s t : State) (i : Instr), exec i s = .next t →
    t.cfg = s.cfg ∧ t.rx = s.rx ∧ t.rst = s.rst ∧
    (t.fault = s.fault → t.fcode = s.fcode) ∧
    (t.lanes ≠ s.lanes ∨ t.buf ≠ s.buf ∨ t.mode ≠ s.mode ∨ t.lc ≠ s.lc →
      t.fault = false ∧ i.op ∈ [Op.init, .absorb, .squeeze, .hash]) ∧
    (i.op = .absorb → t.lanes ≠ s.lanes → s.mode = .absorbing ∧ ∀ o ∈ s.buf, o ≠ none) ∧
    (i.op ∈ [Op.nop, .status, .perm, .fold, .capiv, .padding] → t.fault = s.fault →
      ∃ r : Response, t = { s with tx := s.tx ++ [r] })

/-! ### The permutation and the domain -/

/-- R69, R70 (with R64 to R68): lane i of a full round is the sum over j of MDS[i][j] times the S-box of lane j plus its constant; in a partial
round the S-box acts on lane 0 only. The S-box itself (R65, R10): x^ALPHA mod P for a power map, with x^0 = 1 for 0 too, and entry x of a
table of values (notes/assumptions/11.md). -/
def Obligations.RoundLanesAreTheMatrixSum : Prop :=
  (∀ (c : Config) (s : List Nat) (r : Nat),
    (fullRound c s r).length = c.t ∧ (partialRound c s r).length = c.t ∧
    ∀ i, i < c.t →
      (fullRound c s r)[i]? =
        some ((∑ j ∈ Finset.range c.t, mdsAt c i j * sbox c ((lane s j + rcAt c r j) % c.p)) % c.p) ∧
      (partialRound c s r)[i]? =
        some ((∑ j ∈ Finset.range c.t, mdsAt c i j *
          (if j = 0 then sbox c ((lane s j + rcAt c r j) % c.p) else (lane s j + rcAt c r j) % c.p)) % c.p)) ∧
  (∀ (c : Config) (alpha x : Nat), c.sbox = .power alpha →
    sbox c x = x ^ alpha % c.p ∧ (alpha = 0 → 2 ≤ c.p → sbox c x = 1)) ∧
  (∀ (c : Config) (values : List Nat) (x y : Nat), c.sbox = .table values → values[x]? = some y → sbox c x = y)

/-- R71: RF/2 full rounds, then RP partial rounds, then RF/2 full rounds, round r with row RC[r]. -/
def Obligations.PermutationFollowsRoundSchedule : Prop :=
  ∀ (c : Config) (s : List Nat), c.rf % 2 = 0 →
    permute c s =
      (List.range' (c.rf / 2 + c.rp) (c.rf / 2)).foldl (fullRound c)
        ((List.range' (c.rf / 2) c.rp).foldl (partialRound c)
          ((List.range' 0 (c.rf / 2)).foldl (fullRound c) s))

/-- R74: the corner cases of the schedule, with the rule's own examples. -/
def Obligations.ScheduleCornerCases : Prop :=
  (∀ (c : Config) (s : List Nat), c.rp = 0 → permute c s = (List.range c.rf).foldl (fullRound c) s) ∧
  (∀ (c : Config) (s : List Nat), c.rf = 0 → permute c s = (List.range c.rp).foldl (partialRound c) s) ∧
  (∀ (c : Config) (s : List Nat), c.rf = 0 → c.rp = 0 → permute c s = s) ∧
  (∀ s : State, s.fault = false → shapeOk s.cfg = true → s.cfg.rf % 2 = 1 →
    exec .init s = .next { s with
      fault := true, fcode := .rfOdd, tx := s.tx ++ [⟨0x02, .fault, .rfOdd, []⟩] }) ∧
  permute Config.toyA [0, 0, 0] = [38, 92, 27] ∧
  permute { Config.toyA with rf := 0, rp := 1, rc := [[1, 2, 3]] } [5, 6, 7] = [66, 62, 76] ∧
  permute { Config.toyA with rf := 2, rp := 0, rc := [[1, 2, 3], [4, 5, 6]] } [5, 6, 7] = [21, 83, 17]

/-- R96: the fold adds each set slot into its rate lane and leaves every other lane, the capacity lane among them, as it is; a slot set to 0 and an
unset slot give the same result on canonical lanes. -/
def Obligations.FoldAddsIntoRateLanesOnly : Prop :=
  ∀ (c : Config) (s : List Nat) (b : RateBuffer), s.length = c.t → b.length = c.rate →
    (fold c s b).length = c.t ∧
    (∀ i x u, s[i]? = some x → i < c.rate → b[i]? = some (some u) → (fold c s b)[i]? = some ((x + u) % c.p)) ∧
    (∀ i, i < c.rate → b[i]? = some none → (fold c s b)[i]? = s[i]?) ∧
    (∀ i, c.rate ≤ i → (fold c s b)[i]? = s[i]?) ∧
    (Canonical c s → ∀ i, b[i]? = some none → fold c s (b.set i (some 0)) = fold c s b)

/-- R98 (spec/42_domain.md part 5): loading PAD's zeros into the unset slots of a buffer would change no STATE. -/
def Obligations.PaddingChangesNoFold : Prop :=
  ∀ (c : Config) (s : List Nat) (b : RateBuffer), LanesOk c s → b.length = c.rate →
    fold c s (List.zipWith (fun x y => x.orElse fun _ => y) b (pad c)) = fold c s b

/-- R103: with L_MAX · 2^CAP_SHIFT + OUT_TAG < P, different lengths give different capacity values; the defaults meet it for P above 65535 · 2^64; and for
a small P two lengths can give one value. -/
def Obligations.CapacityEncodingIsInjective : Prop :=
  (∀ (c : Config) (l₁ l₂ : Nat), c.lMax * 2 ^ c.capShift + c.outTag < c.p → l₁ ≤ c.lMax → l₂ ≤ c.lMax →
    capIv { c with l := l₁ } = capIv { c with l := l₂ } → l₁ = l₂) ∧
  (∀ c : Config, c.lMax ≤ 65535 → c.capShift = 64 → c.outTag = 0 → 65535 * 2 ^ 64 < c.p →
    c.lMax * 2 ^ c.capShift + c.outTag < c.p) ∧
  (∃ l₁ l₂, l₁ ≠ l₂ ∧ l₁ ≤ Config.toyA.lMax ∧ l₂ ≤ Config.toyA.lMax ∧
    capIv { Config.toyA with l := l₁ } = capIv { Config.toyA with l := l₂ })

/-! ### Laws over sequences of commands -/

/-- R89: absorbing n ≤ RATE values after INIT and squeezing once returns lane 0 of one permutation of the directly built state. -/
def Obligations.AbsorbThenSqueezeIsDirectConstruction : Prop :=
  ∀ (s₀ s : State) (m : List Nat), configAdmitted s₀.cfg = true → s₀.fault = false →
    exec .init s₀ = .next s → s.fault = false → m.length ≤ s.cfg.rate → (∀ w ∈ m, w < s.cfg.p) →
    let y := permute s.cfg (m ++ List.replicate (s.cfg.rate - m.length) 0 ++ [capIv s.cfg])
    absorbAllPermutations m s = 0 ∧
    ∃ t, execAll (m.map Instr.absorb ++ [.squeeze]) s = .next t ∧ t.lanes = y ∧ t.lc = .duplex ∧
      t.tx = s.tx ++ List.replicate m.length ⟨0x10, .ok, s.fcode, []⟩ ++ [⟨0x11, .ok, s.fcode, [lane y 0]⟩]

/-- R90: the overflow path. RATE + 1 absorbs after INIT run one duplex round, whose output is dropped, and a SQUEEZE then runs a second. -/
def Obligations.OverflowPathRunsTwoRounds : Prop :=
  ∀ (s₀ s : State) (m : List Nat) (v : Nat), configAdmitted s₀.cfg = true → s₀.fault = false →
    exec .init s₀ = .next s → s.fault = false → m.length = s.cfg.rate → (∀ w ∈ m, w < s.cfg.p) → v < s.cfg.p →
    let y := permute s.cfg (m ++ [capIv s.cfg])
    let z := permute s.cfg (fold s.cfg y [some v])
    absorbAllPermutations (m ++ [v]) s = 1 ∧
    ∃ t, execAll ((m ++ [v]).map Instr.absorb) s = .next t ∧ t.lanes = y ∧ t.mode = .absorbing ∧
      t.buf = some v :: List.replicate (s.cfg.rate - 1) none ∧
      ∃ u, exec .squeeze t = .next u ∧ u.lanes = z ∧ u.tx = t.tx ++ [⟨0x11, .ok, s.fcode, [lane z 0]⟩]

/-- R91: from an Absorbing state, whose first SQUEEZE runs a duplex round, SQUEEZEs 1 .. RATE return that round's rate lanes 0 .. RATE-1 in order, and
SQUEEZE number RATE + 1 permutes the state again and returns the new lane 0. -/
def Obligations.ExtendedSqueezePermutesAgain : Prop :=
  ∀ s : State, Inv s → s.fault = false → (s.lc = .ready ∨ s.lc = .duplex) → s.mode = .absorbing →
    let y := permute s.cfg (fold s.cfg s.lanes s.buf)
    (∀ n, 1 ≤ n → n ≤ s.cfg.rate →
      ∃ t, execAll (List.replicate n .squeeze) s = .next t ∧ t.lanes = y ∧
        t.tx = s.tx ++ (List.range n).map fun i => ⟨0x11, .ok, s.fcode, [lane y i]⟩) ∧
    ∃ t, execAll (List.replicate (s.cfg.rate + 1) .squeeze) s = .next t ∧ t.lanes = permute s.cfg y ∧
      t.tx = s.tx ++ (List.range s.cfg.rate).map (fun i => ⟨0x11, .ok, s.fcode, [lane y i]⟩)
        ++ [⟨0x11, .ok, s.fcode, [lane (permute s.cfg y) 0]⟩]

/-- R92: ABSORB v in Squeezing and then SQUEEZE returns lane 0 of the permutation of STATE with v added into lane 0, whatever output was unread. -/
def Obligations.ModeSwitchDiscardsUnreadOutput : Prop :=
  ∀ (s : State) (v : Nat), Inv s → s.fault = false → (s.lc = .ready ∨ s.lc = .duplex) → s.mode = .squeezing →
    v < s.cfg.p → v < 2 ^ s.cfg.fw →
    let y := permute s.cfg (fold s.cfg s.lanes [some v])
    ∃ t, execAll [.absorb v, .squeeze] s = .next t ∧ t.lanes = y ∧
      t.tx = s.tx ++ [⟨0x10, .ok, s.fcode, []⟩, ⟨0x11, .ok, s.fcode, [lane y 0]⟩]

/-- R109: HASH from a READY instance returns what ABSORB of each word and one SQUEEZE return, and leaves the same STATE, MODE and BUF; only LC differs. For
L ≤ RATE the value is lane 0 of the directly built state's permutation. -/
def Obligations.HashEqualsRawDuplex : Prop :=
  ∀ (s : State) (m : List Nat), Inv s → configAdmitted s.cfg = true → s.fault = false → s.lc = .ready →
    m.length = s.cfg.l → (∀ w ∈ m, w < s.cfg.p) →
    ∃ t u v, exec (.hash m) s = .next t ∧ t.tx = s.tx ++ [⟨0x20, .ok, s.fcode, [v]⟩] ∧ t.lc = .consumed ∧
      execAll (m.map Instr.absorb ++ [.squeeze]) s = .next u ∧
      u.tx = s.tx ++ List.replicate m.length ⟨0x10, .ok, s.fcode, []⟩ ++ [⟨0x11, .ok, s.fcode, [v]⟩] ∧
      u = { t with lc := .duplex, tx := u.tx } ∧
      (s.cfg.l ≤ s.cfg.rate →
        v = lane (permute s.cfg (m ++ List.replicate (s.cfg.rate - s.cfg.l) 0 ++ [capIv s.cfg])) 0)

/-- R108: HASH runs exactly max(1, ceil(L / RATE)) permutations: floor((L-1) / RATE) in its absorbs and one in its squeeze; and the absorb of word k
(1-based) runs one exactly when k > RATE and k - 1 is a multiple of RATE. -/
def Obligations.HashPermutationCount : Prop :=
  ∀ (s : State) (m : List Nat), Inv s → s.lc = .ready → m.length = s.cfg.l →
    hashPermutations m s = max 1 ((s.cfg.l + s.cfg.rate - 1) / s.cfg.rate) ∧
    absorbAllPermutations m s = (s.cfg.l - 1) / s.cfg.rate ∧ squeezePermutations (absorbAll m s) = 1 ∧
    ∀ k, 1 ≤ k → k ≤ s.cfg.l →
      absorbPermutations (absorbAll (m.take (k - 1)) s) =
        if s.cfg.rate < k ∧ (k - 1) % s.cfg.rate = 0 then 1 else 0

/-- R115: for one CFG and one message, INIT followed by HASH returns the same value on any instance, whatever the cores held before. -/
def Obligations.HashOfFreshInstanceIsDeterministic : Prop :=
  ∀ (s₁ s₂ : State) (m : List Nat), s₁.cfg = s₂.cfg → configAdmitted s₁.cfg = true → initPasses s₁.cfg →
    s₁.fault = false → s₂.fault = false → m.length = s₁.cfg.l → (∀ w ∈ m, w < s₁.cfg.p) →
    ∃ t₁ t₂ v, execAll [.init, .hash m] s₁ = .next t₁ ∧ execAll [.init, .hash m] s₂ = .next t₂ ∧
      t₁.tx = s₁.tx ++ [⟨0x02, .ok, s₁.fcode, []⟩, ⟨0x20, .ok, s₁.fcode, [v]⟩] ∧
      t₂.tx = s₂.tx ++ [⟨0x02, .ok, s₂.fcode, []⟩, ⟨0x20, .ok, s₂.fcode, [v]⟩]

/-! ### Responses -/

/-- R58: the response header, field by field, FCODE by its number in R118, with M below 2^16. -/
def Obligations.ResponseHeaderLayout : Prop :=
  ∀ r : Response, r.words.length ≤ 65535 →
    r.header.extractLsb' 0 8 = r.opc ∧
    (r.header.extractLsb' 8 2).toNat = (match r.st with | .ok => 0 | .fault => 1 | .refused => 2) ∧
    r.header.extractLsb' 10 2 = 0 ∧
    (r.header.extractLsb' 12 4).toNat = faultNumber r.fcode ∧
    (r.header.extractLsb' 16 16).toNat = r.words.length

/-- R58, R59 (spec/30_encoding.md part 4): every command gets exactly one response, which echoes its opcode and carries the FCODE register after it; a response
that is not OK has no words; an OK response has the number of words the opcode map gives. -/
def Obligations.EveryCommandGetsOneResponse : Prop :=
  (∀ (s t : State) (i : Instr), exec i s = .next t →
    ∃ r : Response, t.tx = s.tx ++ [r] ∧ r.opc = i.op.code ∧ r.fcode = t.fcode ∧ (r.st ≠ .ok → r.words = []) ∧
      (r.st = .ok → r.words.length = resultCount s.cfg i.op) ∧
      (r.st = .refused ↔ s.fault = true ∧ i.op ≠ .status) ∧ (r.st = .fault ↔ s.fault = false ∧ t.fault = true)) ∧
  (∀ (s : State) (opc : BitVec 8) (e : DecodeError),
    ∃ r : Response, (rejectFrame opc e s).tx = s.tx ++ [r] ∧ r.opc = opc ∧ r.fcode = (rejectFrame opc e s).fcode ∧ r.words = [] ∧
      r.st = (if s.fault then .refused else .fault))

/-- R40, R39, R58 (spec/20_memory.md part 2): a response travels as the 4 bytes of its header and then its result words in order, a STATUS word as
4 bytes and every other word as ceil(FW/8); and the host reads back from the bytes the header and each word that fits them. -/
def Obligations.ResponseTravelsAsItsBytes : Prop :=
  ∀ (c : Config) (r : Response),
    let n := if r.opc = 0x01 then 4 else c.elemBytes
    (r.bytes c).length = 4 + r.words.length * n ∧
    wordOfBytes c.byteOrder ((r.bytes c).take 4) = r.header.toNat ∧
    ∀ k w, r.words[k]? = some w → w < 256 ^ n →
      wordOfBytes c.byteOrder (((r.bytes c).drop (4 + k * n)).take n) = w

/-! ### Invariants -/

/-- Reset meets the invariant, for every configuration (R32, R23, R24). -/
def Obligations.ResetMeetsInvariant : Prop := ∀ c : Config, Inv (State.resetWith c)

/-- Every step keeps the invariant (R17, R19, R21, R23, R24, R120). -/
def Obligations.StepKeepsInvariant : Prop :=
  ∀ s t : State, Inv s → step s = .next t → Inv t

/-- R21: in every state a run can reach with an instance, the set slots of an Absorbing buffer are a prefix and those of a Squeezing
buffer a suffix. -/
def Obligations.BufferShapeHoldsInEveryRun : Prop :=
  ∀ (c : Config) (s : State), Reachable c s → s.lc ≠ .uninit →
    (s.mode = .absorbing → ∃ k, k ≤ c.rate ∧
      ∀ i, i < c.rate → ((i < k → ∃ v, s.buf[i]? = some (some v)) ∧ (k ≤ i → s.buf[i]? = some none))) ∧
    (s.mode = .squeezing → ∃ k, k ≤ c.rate ∧
      ∀ i, i < c.rate → ((i < k → s.buf[i]? = some none) ∧ (k ≤ i → ∃ v, s.buf[i]? = some (some v))))

/-- R17: in every state a run can reach with an instance, STATE has exactly T lanes, each an element of F. -/
def Obligations.StateIsTLanesInEveryRun : Prop :=
  ∀ (c : Config) (s : State), Reachable c s → s.lc ≠ .uninit →
    s.lanes.length = c.t ∧ (∀ x ∈ s.lanes, x < c.p) ∧ s.buf.length = c.rate ∧ ∀ v, some v ∈ s.buf → v < c.p

/-- R25, R47 (spec/10_state.md part 4): no step changes CFG, so it stays what it was at reset. -/
def Obligations.ConfigurationNeverChanges : Prop :=
  (∀ s t : State, step s = .next t → t.cfg = s.cfg) ∧ (∀ (c : Config) (s : State), Reachable c s → s.cfg = c)

/-- R117, R142 (spec/60_exceptions.md part 1, spec/70_reset_and_hazards.md part 5): in a state that meets the invariant every step ends, with a next state: no command can stop the
machine, and only a CFG outside the spec is refused. -/
def Obligations.EveryStepEndsWithANextState : Prop :=
  (∀ s : State, Inv s → configAdmitted s.cfg = true → ∃ t, step s = .next t) ∧
  (∀ (s : State) (i : Instr), Inv s → ∃ t, exec i s = .next t)

/-- U2, R133 (spec/93_implementation_defined.md part 1): with no reset pending, a step is refused exactly when CFG breaks what R7 and R8
allow: P prime, FW ≥ bitlen(P-1), L_MAX ≤ 65535 and, where T = RATE + 1, MDS a T x T matrix over F, the rows of RC T-vectors over F and
SBOX a map from F to F. That the refusal comes at every frame, and that the tables are asked for only there, is the model's choice
(DESIGN CHOICE, notes/assumptions/4.md). -/
def Obligations.OnlyForeignConfigurationIsRefused : Prop :=
  ∀ s : State, s.rst = false →
    ((∃ r, step s = .refused r) ↔ ¬ConfigSound s.cfg) ∧
    (¬ConfigSound s.cfg → step s = .refused .configOutsideSpec)
end

