-- ==== Sys2Proof/Laws/State.lean ====
section
/-! SUPPORT. One lemma per field per named update of the state, true by rfl, so that no later proof unfolds an update. -/

namespace Sys2Proof.Machine

variable (s : State)


/-! ### respond -/

@[simp] theorem respond_cfg (op : BitVec 8) (st : RespStatus) (ws : List Nat) : (respond op st ws s).cfg = s.cfg := rfl
@[simp] theorem respond_lanes (op : BitVec 8) (st : RespStatus) (ws : List Nat) : (respond op st ws s).lanes = s.lanes := rfl
@[simp] theorem respond_buf (op : BitVec 8) (st : RespStatus) (ws : List Nat) : (respond op st ws s).buf = s.buf := rfl
@[simp] theorem respond_mode (op : BitVec 8) (st : RespStatus) (ws : List Nat) : (respond op st ws s).mode = s.mode := rfl
@[simp] theorem respond_lc (op : BitVec 8) (st : RespStatus) (ws : List Nat) : (respond op st ws s).lc = s.lc := rfl
@[simp] theorem respond_fault (op : BitVec 8) (st : RespStatus) (ws : List Nat) : (respond op st ws s).fault = s.fault := rfl
@[simp] theorem respond_fcode (op : BitVec 8) (st : RespStatus) (ws : List Nat) : (respond op st ws s).fcode = s.fcode := rfl
@[simp] theorem respond_rx (op : BitVec 8) (st : RespStatus) (ws : List Nat) : (respond op st ws s).rx = s.rx := rfl
@[simp] theorem respond_tx (op : BitVec 8) (st : RespStatus) (ws : List Nat) : (respond op st ws s).tx = s.tx ++ [⟨op, st, s.fcode, ws⟩] := rfl
@[simp] theorem respond_rst (op : BitVec 8) (st : RespStatus) (ws : List Nat) : (respond op st ws s).rst = s.rst := rfl

/-! ### respondOk -/

@[simp] theorem respondOk_cfg (op : Op) (ws : List Nat) : (respondOk op ws s).cfg = s.cfg := rfl
@[simp] theorem respondOk_lanes (op : Op) (ws : List Nat) : (respondOk op ws s).lanes = s.lanes := rfl
@[simp] theorem respondOk_buf (op : Op) (ws : List Nat) : (respondOk op ws s).buf = s.buf := rfl
@[simp] theorem respondOk_mode (op : Op) (ws : List Nat) : (respondOk op ws s).mode = s.mode := rfl
@[simp] theorem respondOk_lc (op : Op) (ws : List Nat) : (respondOk op ws s).lc = s.lc := rfl
@[simp] theorem respondOk_fault (op : Op) (ws : List Nat) : (respondOk op ws s).fault = s.fault := rfl
@[simp] theorem respondOk_fcode (op : Op) (ws : List Nat) : (respondOk op ws s).fcode = s.fcode := rfl
@[simp] theorem respondOk_rx (op : Op) (ws : List Nat) : (respondOk op ws s).rx = s.rx := rfl
@[simp] theorem respondOk_tx (op : Op) (ws : List Nat) : (respondOk op ws s).tx = s.tx ++ [⟨op.code, .ok, s.fcode, ws⟩] := rfl
@[simp] theorem respondOk_rst (op : Op) (ws : List Nat) : (respondOk op ws s).rst = s.rst := rfl

/-! ### raiseFault -/

@[simp] theorem raiseFault_cfg (op : BitVec 8) (code : FaultCode) : (raiseFault op code s).cfg = s.cfg := rfl
@[simp] theorem raiseFault_lanes (op : BitVec 8) (code : FaultCode) : (raiseFault op code s).lanes = s.lanes := rfl
@[simp] theorem raiseFault_buf (op : BitVec 8) (code : FaultCode) : (raiseFault op code s).buf = s.buf := rfl
@[simp] theorem raiseFault_mode (op : BitVec 8) (code : FaultCode) : (raiseFault op code s).mode = s.mode := rfl
@[simp] theorem raiseFault_lc (op : BitVec 8) (code : FaultCode) : (raiseFault op code s).lc = s.lc := rfl
@[simp] theorem raiseFault_fault (op : BitVec 8) (code : FaultCode) : (raiseFault op code s).fault = true := rfl
@[simp] theorem raiseFault_fcode (op : BitVec 8) (code : FaultCode) : (raiseFault op code s).fcode = code := rfl
@[simp] theorem raiseFault_rx (op : BitVec 8) (code : FaultCode) : (raiseFault op code s).rx = s.rx := rfl
@[simp] theorem raiseFault_tx (op : BitVec 8) (code : FaultCode) : (raiseFault op code s).tx = s.tx ++ [⟨op, .fault, code, []⟩] := rfl
@[simp] theorem raiseFault_rst (op : BitVec 8) (code : FaultCode) : (raiseFault op code s).rst = s.rst := rfl

/-! ### refuse -/

@[simp] theorem refuse_cfg (op : BitVec 8) : (refuse op s).cfg = s.cfg := rfl
@[simp] theorem refuse_lanes (op : BitVec 8) : (refuse op s).lanes = s.lanes := rfl
@[simp] theorem refuse_buf (op : BitVec 8) : (refuse op s).buf = s.buf := rfl
@[simp] theorem refuse_mode (op : BitVec 8) : (refuse op s).mode = s.mode := rfl
@[simp] theorem refuse_lc (op : BitVec 8) : (refuse op s).lc = s.lc := rfl
@[simp] theorem refuse_fault (op : BitVec 8) : (refuse op s).fault = s.fault := rfl
@[simp] theorem refuse_fcode (op : BitVec 8) : (refuse op s).fcode = s.fcode := rfl
@[simp] theorem refuse_rx (op : BitVec 8) : (refuse op s).rx = s.rx := rfl
@[simp] theorem refuse_tx (op : BitVec 8) : (refuse op s).tx = s.tx ++ [⟨op, .refused, s.fcode, []⟩] := rfl
@[simp] theorem refuse_rst (op : BitVec 8) : (refuse op s).rst = s.rst := rfl

/-! ### applyReset -/

@[simp] theorem applyReset_cfg : (applyReset s).cfg = s.cfg := rfl
@[simp] theorem applyReset_lanes : (applyReset s).lanes = List.replicate s.cfg.t 0 := rfl
@[simp] theorem applyReset_buf : (applyReset s).buf = List.replicate s.cfg.rate none := rfl
@[simp] theorem applyReset_mode : (applyReset s).mode = .absorbing := rfl
@[simp] theorem applyReset_lc : (applyReset s).lc = .uninit := rfl
@[simp] theorem applyReset_fault : (applyReset s).fault = false := rfl
@[simp] theorem applyReset_fcode : (applyReset s).fcode = .none := rfl
@[simp] theorem applyReset_rx : (applyReset s).rx = [] := rfl
@[simp] theorem applyReset_tx : (applyReset s).tx = s.tx := rfl
@[simp] theorem applyReset_rst : (applyReset s).rst = false := rfl

/-! ### hostSend -/

@[simp] theorem hostSend_cfg (bs : List Byte) : (hostSend bs s).cfg = s.cfg := rfl
@[simp] theorem hostSend_lanes (bs : List Byte) : (hostSend bs s).lanes = s.lanes := rfl
@[simp] theorem hostSend_buf (bs : List Byte) : (hostSend bs s).buf = s.buf := rfl
@[simp] theorem hostSend_mode (bs : List Byte) : (hostSend bs s).mode = s.mode := rfl
@[simp] theorem hostSend_lc (bs : List Byte) : (hostSend bs s).lc = s.lc := rfl
@[simp] theorem hostSend_fault (bs : List Byte) : (hostSend bs s).fault = s.fault := rfl
@[simp] theorem hostSend_fcode (bs : List Byte) : (hostSend bs s).fcode = s.fcode := rfl
@[simp] theorem hostSend_rx (bs : List Byte) : (hostSend bs s).rx = s.rx ++ bs := rfl
@[simp] theorem hostSend_tx (bs : List Byte) : (hostSend bs s).tx = s.tx := rfl
@[simp] theorem hostSend_rst (bs : List Byte) : (hostSend bs s).rst = s.rst := rfl

/-! ### hostReset -/

@[simp] theorem hostReset_cfg : (hostReset s).cfg = s.cfg := rfl
@[simp] theorem hostReset_lanes : (hostReset s).lanes = s.lanes := rfl
@[simp] theorem hostReset_buf : (hostReset s).buf = s.buf := rfl
@[simp] theorem hostReset_mode : (hostReset s).mode = s.mode := rfl
@[simp] theorem hostReset_lc : (hostReset s).lc = s.lc := rfl
@[simp] theorem hostReset_fault : (hostReset s).fault = s.fault := rfl
@[simp] theorem hostReset_fcode : (hostReset s).fcode = s.fcode := rfl
@[simp] theorem hostReset_rx : (hostReset s).rx = s.rx := rfl
@[simp] theorem hostReset_tx : (hostReset s).tx = s.tx := rfl
@[simp] theorem hostReset_rst : (hostReset s).rst = true := rfl

/-! ### newInstance -/

@[simp] theorem newInstance_cfg : (newInstance s).cfg = s.cfg := rfl
@[simp] theorem newInstance_lanes : (newInstance s).lanes = initialLanes s.cfg := rfl
@[simp] theorem newInstance_buf : (newInstance s).buf = unsetBuffer s.cfg := rfl
@[simp] theorem newInstance_mode : (newInstance s).mode = .absorbing := rfl
@[simp] theorem newInstance_lc : (newInstance s).lc = .ready := rfl
@[simp] theorem newInstance_fault : (newInstance s).fault = s.fault := rfl
@[simp] theorem newInstance_fcode : (newInstance s).fcode = s.fcode := rfl
@[simp] theorem newInstance_rx : (newInstance s).rx = s.rx := rfl
@[simp] theorem newInstance_tx : (newInstance s).tx = s.tx := rfl
@[simp] theorem newInstance_rst : (newInstance s).rst = s.rst := rfl

/-! ### squeezeRun -/

@[simp] theorem squeezeRun_cfg : (squeezeRun s).cfg = s.cfg := rfl
@[simp] theorem squeezeRun_lanes : (squeezeRun s).lanes = duplexLanes s.cfg s.lanes s.buf := rfl
@[simp] theorem squeezeRun_buf : (squeezeRun s).buf = rateBuffer s.cfg (duplexLanes s.cfg s.lanes s.buf) := rfl
@[simp] theorem squeezeRun_mode : (squeezeRun s).mode = .squeezing := rfl
@[simp] theorem squeezeRun_lc : (squeezeRun s).lc = s.lc := rfl
@[simp] theorem squeezeRun_fault : (squeezeRun s).fault = s.fault := rfl
@[simp] theorem squeezeRun_fcode : (squeezeRun s).fcode = s.fcode := rfl
@[simp] theorem squeezeRun_rx : (squeezeRun s).rx = s.rx := rfl
@[simp] theorem squeezeRun_tx : (squeezeRun s).tx = s.tx := rfl
@[simp] theorem squeezeRun_rst : (squeezeRun s).rst = s.rst := rfl

/-! ### resetWith -/

variable (c : Config)

@[simp] theorem resetWith_cfg : (State.resetWith c).cfg = c := rfl
@[simp] theorem resetWith_lanes : (State.resetWith c).lanes = List.replicate c.t 0 := rfl
@[simp] theorem resetWith_buf : (State.resetWith c).buf = List.replicate c.rate none := rfl
@[simp] theorem resetWith_mode : (State.resetWith c).mode = .absorbing := rfl
@[simp] theorem resetWith_lc : (State.resetWith c).lc = .uninit := rfl
@[simp] theorem resetWith_fault : (State.resetWith c).fault = false := rfl
@[simp] theorem resetWith_fcode : (State.resetWith c).fcode = .none := rfl
@[simp] theorem resetWith_rx : (State.resetWith c).rx = [] := rfl
@[simp] theorem resetWith_tx : (State.resetWith c).tx = [] := rfl
@[simp] theorem resetWith_rst : (State.resetWith c).rst = false := rfl

end Sys2Proof.Machine
end

