-- ==== Sys2Proof/Laws/Config.lean ====
section
/-! SUPPORT. What an admitted configuration gives: the bounds of R7 and R8 in the form proofs use. -/

namespace Sys2Proof

/-- A number has at most k bits exactly when it is below 2^k. -/
theorem bitlen_le_iff (n k : Nat) : bitlen n ≤ k ↔ n < 2 ^ k := by
  unfold bitlen
  split
  · next h => simp [h]
  · next h => rw [Nat.succ_le_iff, Nat.log2_lt h]

namespace Machine

/-- Trial division finds no divisor exactly when none of the numbers tried, with a square of at most p, divides p. -/
theorem noDivisorFrom_iff (p : Nat) : ∀ n d : Nat,
    noDivisorFrom p n d = true ↔ ∀ m, d ≤ m → m < d + n → m * m ≤ p → ¬m ∣ p
  | 0, d => by simp only [noDivisorFrom, true_iff]; intro m h₁ h₂; omega
  | n + 1, d => by
    simp only [noDivisorFrom, Bool.or_eq_true, Bool.and_eq_true, decide_eq_true_eq, bne_iff_ne, ne_eq,
      noDivisorFrom_iff p n (d + 1), Nat.dvd_iff_mod_eq_zero]
    constructor
    · rintro (h | ⟨hd, h⟩) m h₁ h₂ h₃
      · have := Nat.mul_le_mul h₁ h₁
        omega
      · obtain rfl | h₁ := Nat.eq_or_lt_of_le h₁
        · exact hd
        · exact h m h₁ (by omega) h₃
    · intro h
      by_cases hd : p < d * d
      · exact .inl hd
      · exact .inr ⟨h d le_rfl (by omega) (by omega), fun m h₁ h₂ => h m (by omega) (by omega)⟩

/-- The model's test of P is primality (R8). -/
theorem isPrime_iff {p : Nat} : isPrime p = true ↔ Nat.Prime p := by
  simp only [isPrime, Bool.and_eq_true, decide_eq_true_eq, noDivisorFrom_iff, Nat.prime_def_le_sqrt, Nat.le_sqrt]
  refine and_congr_right fun _ => forall_congr' fun m => ?_
  constructor
  · exact fun h h₁ h₂ => h h₁ (by nlinarith) h₂
  · exact fun h h₁ _ h₂ => h h₁ h₂

/-- A table of T-rows over F. -/
theorem tableOk_iff {c : Config} {rows : List (List Nat)} : tableOk c rows = true ↔ ∀ row ∈ rows, RowSound c row := by
  simp [tableOk, rowCanonical]

/-- SBOX is a map from F to F. -/
theorem sboxOk_iff {c : Config} :
    sboxOk c = true ↔ ∀ xs, c.sbox = .table xs → xs.length = c.p ∧ ∀ x ∈ xs, x < c.p := by
  unfold sboxOk
  split <;> simp_all [rowCanonical]

/-- The model's test of CFG says exactly what R7 and R8 ask. -/
theorem configAdmitted_iff {c : Config} : configAdmitted c = true ↔ ConfigSound c := by
  simp only [configAdmitted, Bool.and_eq_true, Bool.or_eq_true, decide_eq_true_eq, beq_iff_eq, bne_iff_ne, ne_eq, isPrime_iff,
    bitlen_le_iff, tableOk_iff, sboxOk_iff, ← Nat.size_le]
  constructor
  · rintro ⟨⟨⟨hp, hw⟩, hl⟩, ht⟩
    have ht := fun h => ht.resolve_left (not_not.2 h)
    exact ⟨hp, hw, hl, fun h => (ht h).1.1, fun h => (ht h).1.2, fun h => (ht h).2⟩
  · rintro ⟨hp, hw, hl, hm, hr, hs⟩
    exact ⟨⟨⟨hp, hw⟩, hl⟩, or_iff_not_imp_left.2 fun h => ⟨⟨hm (not_not.1 h), hr (not_not.1 h)⟩, hs (not_not.1 h)⟩⟩

/-- P of an admitted configuration is prime (R8). -/
theorem configAdmitted_prime {c : Config} (h : configAdmitted c = true) : Nat.Prime c.p := (configAdmitted_iff.1 h).prime

/-- The bounds of an admitted configuration. -/
theorem configAdmitted_bounds {c : Config} (h : configAdmitted c = true) :
    2 ≤ c.p ∧ c.p ≤ 2 ^ c.fw ∧ c.lMax ≤ 65535 := by
  have hc := configAdmitted_iff.1 h
  have hw := Nat.size_le.1 hc.width
  have h2 := hc.prime.two_le
  exact ⟨h2, by omega, hc.lMax⟩

theorem configAdmitted_pos {c : Config} (h : configAdmitted c = true) : 1 ≤ c.p :=
  Nat.le_of_succ_le (configAdmitted_bounds h).1

/-- Under an admitted configuration an element of F fits an FW-bit word. -/
theorem lt_word_of_lt_p {c : Config} (h : configAdmitted c = true) {w : Nat} (hw : w < c.p) : w < 2 ^ c.fw :=
  Nat.lt_of_lt_of_le hw (configAdmitted_bounds h).2.1

theorem canonical_iff {c : Config} {w : Nat} : canonical c w = true ↔ w < 2 ^ c.fw ∧ w < c.p := by
  simp [canonical]

theorem valuesOk_iff {c : Config} {ws : List Nat} : valuesOk c ws = true ↔ ∀ w ∈ ws, w < 2 ^ c.fw ∧ w < c.p := by
  simp [valuesOk, canonical]

/-- INIT's checks pass exactly when all four conditions of R120 hold. -/
theorem initPasses_iff {c : Config} : initPasses c ↔
    (1 ≤ c.rate ∧ c.t = c.rate + 1 ∧ c.rate ≤ 65535 ∧ c.rate ≤ c.fw) ∧ c.rf % 2 = 0 ∧
      c.rc.length = c.rf + c.rp ∧ c.l ≤ c.lMax := by
  simp only [initPasses, initChecks, firstFault, shapeOk]
  split_ifs <;> simp_all <;> omega

end Machine

end Sys2Proof
end

