-- ==== Sys2Proof/Laws/Bytes.lean ====
section
/-! SUPPORT. Words as bytes and back (R39, R40), and what the receiver takes off the channel (R41, R54). -/

namespace Sys2Proof

@[simp] theorem leBytes_length (n w : Nat) : (leBytes n w).length = n := by
  induction n generalizing w with
  | zero => rfl
  | succ n ih => simp [leBytes, ih]

/-- Byte k of a word (R39). -/
theorem leBytes_getElem? (n w k : Nat) (h : k < n) :
    (leBytes n w)[k]? = some (BitVec.ofNat 8 (w / 2 ^ (8 * k))) := by
  induction n generalizing w k with
  | zero => omega
  | succ n ih =>
    cases k with
    | zero => simp [leBytes]
    | succ k =>
      rw [leBytes, List.getElem?_cons_succ, ih _ _ (by omega), Nat.div_div_eq_div_mul]
      congr 3
      rw [show 8 * (k + 1) = 8 + 8 * k by ring, Nat.pow_add]

theorem leNat_leBytes (n w : Nat) : leNat (leBytes n w) = w % 256 ^ n := by
  induction n generalizing w with
  | zero => simp [leBytes, leNat, Nat.mod_one]
  | succ n ih =>
    rw [leBytes, leNat, ih, BitVec.toNat_ofNat, Nat.pow_succ' (m := 256), Nat.mod_mul]

theorem leNat_lt (bs : List Byte) : leNat bs < 256 ^ bs.length := by
  induction bs with
  | nil => simp [leNat]
  | cons b bs ih =>
    simp only [leNat, List.length_cons, Nat.pow_succ']
    have := b.isLt
    omega

theorem leBytes_leNat (bs : List Byte) : leBytes bs.length (leNat bs) = bs := by
  induction bs with
  | nil => rfl
  | cons b bs ih =>
    have hb : b.toNat < 256 := b.isLt
    simp only [List.length_cons, leBytes, leNat]
    congr 1
    · apply BitVec.eq_of_toNat_eq
      rw [BitVec.toNat_ofNat, Nat.add_mul_mod_self_left, Nat.mod_eq_of_lt hb]
    · rw [show (b.toNat + 256 * leNat bs) / 256 = leNat bs by omega, ih]

@[simp] theorem bytesOfWord_length (o : ByteOrder) (n w : Nat) : (bytesOfWord o n w).length = n := by
  cases o <;> simp [bytesOfWord]

/-- A word comes back from its n bytes, modulo what n bytes can hold. -/
theorem wordOfBytes_bytesOfWord (o : ByteOrder) (n w : Nat) : wordOfBytes o (bytesOfWord o n w) = w % 256 ^ n := by
  cases o <;> simp [wordOfBytes, bytesOfWord, leNat_leBytes]

/-- Bytes come back from the word they carry. -/
theorem bytesOfWord_wordOfBytes (o : ByteOrder) (bs : List Byte) : bytesOfWord o bs.length (wordOfBytes o bs) = bs := by
  cases o
  · exact leBytes_leNat bs
  · have := leBytes_leNat bs.reverse
    rw [List.length_reverse] at this
    simp [bytesOfWord, wordOfBytes, this]

theorem wordOfBytes_lt (o : ByteOrder) (bs : List Byte) : wordOfBytes o bs < 256 ^ bs.length := by
  cases o
  · exact leNat_lt bs
  · have := leNat_lt bs.reverse
    rwa [List.length_reverse] at this

/-! ### ELEM_BYTES -/

theorem elemBytes_le_iff (c : Config) (n : Nat) : c.fw ≤ 8 * n ↔ c.elemBytes ≤ n := by
  unfold Config.elemBytes; omega

/-- A word of FW bits fits ELEM_BYTES bytes. -/
theorem lt_elemBytes {c : Config} {w : Nat} (h : w < 2 ^ c.fw) : w < 256 ^ c.elemBytes := by
  have : c.fw ≤ 8 * c.elemBytes := (elemBytes_le_iff c _).2 le_rfl
  calc w < 2 ^ c.fw := h
    _ ≤ 2 ^ (8 * c.elemBytes) := Nat.pow_le_pow_right (by decide) this
    _ = 256 ^ c.elemBytes := by rw [Nat.pow_mul]

/-! ### Taking bytes and words off the channel -/

/-- Enough bytes are there exactly when the channel holds that many, and they are its first ones. -/
theorem takeBytes_eq (n : Nat) (bs : List Byte) :
    takeBytes n bs = if n ≤ bs.length then some (bs.take n, bs.drop n) else none := by
  induction n generalizing bs with
  | zero => simp [takeBytes]
  | succ n ih =>
    cases bs with
    | nil => simp [takeBytes]
    | cons b bs =>
      simp only [takeBytes, ih, List.length_cons, Nat.add_le_add_iff_right]
      split <;> simp

theorem takeBytes_append (bs rest : List Byte) : takeBytes bs.length (bs ++ rest) = some (bs, rest) := by
  simp [takeBytes_eq]

/-- Whether n words are there, how many they are, and what remains. -/
theorem takeWords_spec (c : Config) (n : Nat) (bs : List Byte) :
    (takeWords c n bs = none ↔ bs.length < n * c.elemBytes) ∧
    ∀ ws rest, takeWords c n bs = some (ws, rest) → ws.length = n ∧ rest = bs.drop (n * c.elemBytes) := by
  induction n generalizing bs with
  | zero => simp [takeWords]
  | succ n ih =>
    rw [takeWords, takeBytes_eq, Nat.succ_mul]
    split
    · next h =>
      split at h
      · simp at h
      · simp; omega
    · next w bs' h =>
      split at h
      · simp only [Option.some.injEq, Prod.mk.injEq] at h
        obtain ⟨rfl, rfl⟩ := h
        obtain ⟨ih₁, ih₂⟩ := ih (bs.drop c.elemBytes)
        constructor
        · rw [Option.map_eq_none_iff, ih₁, List.length_drop]; omega
        · intro ws rest hw
          obtain ⟨⟨ws', r'⟩, hr, hw⟩ := Option.map_eq_some_iff.1 hw
          simp only [Prod.mk.injEq] at hw
          obtain ⟨rfl, rfl⟩ := hw
          obtain ⟨hl, hd⟩ := ih₂ _ _ hr
          refine ⟨by simp [hl], ?_⟩
          rw [hd, List.drop_drop, Nat.add_comm]
      · simp at h

/-- Words laid out as bytes are taken back, modulo what ELEM_BYTES bytes can hold. -/
theorem takeWords_bytesOfWords (c : Config) (ws : List Nat) (rest : List Byte) (h : ∀ w ∈ ws, w < 256 ^ c.elemBytes) :
    takeWords c ws.length (bytesOfWords c ws ++ rest) = some (ws, rest) := by
  induction ws with
  | nil => rfl
  | cons w ws ih =>
    have hw : wordOfBytes c.byteOrder (bytesOfWord c.byteOrder c.elemBytes w) = w := by
      rw [wordOfBytes_bytesOfWord, Nat.mod_eq_of_lt (h w (by simp))]
    have ht := takeBytes_append (bytesOfWord c.byteOrder c.elemBytes w) (bytesOfWords c ws ++ rest)
    rw [bytesOfWord_length] at ht
    simp only [bytesOfWords, List.flatMap_cons, List.append_assoc, List.length_cons, takeWords] at ht ⊢
    rw [ht]
    have := ih fun w' hw' => h w' (by simp [hw'])
    simp only [bytesOfWords] at this
    simp [this, hw]

/-- Words taken off the channel are the bytes that were on it. -/
theorem bytesOfWords_of_takeWords (c : Config) (n : Nat) (bs : List Byte) {ws : List Nat} {rest : List Byte}
    (h : takeWords c n bs = some (ws, rest)) : bs = bytesOfWords c ws ++ rest := by
  induction n generalizing bs ws with
  | zero =>
    simp only [takeWords, Option.some.injEq, Prod.mk.injEq] at h
    obtain ⟨rfl, rfl⟩ := h
    rfl
  | succ n ih =>
    rw [takeWords, takeBytes_eq] at h
    split at h
    · simp at h
    · next w bs' hb =>
      split at hb
      · next hlen =>
        simp only [Option.some.injEq, Prod.mk.injEq] at hb
        obtain ⟨⟨ws', r'⟩, hr, hw⟩ := Option.map_eq_some_iff.1 h
        simp only [Prod.mk.injEq] at hw
        obtain ⟨rfl, rfl⟩ := hw
        have hbytes : bytesOfWord c.byteOrder c.elemBytes (wordOfBytes c.byteOrder w) = w := by
          have hl : w.length = c.elemBytes := by rw [← hb.1]; simp [hlen]
          rw [← hl]; exact bytesOfWord_wordOfBytes _ _
        rw [bytesOfWords, List.flatMap_cons, hbytes, List.append_assoc, ← bytesOfWords, ← ih _ hr, ← hb.1, ← hb.2,
          List.take_append_drop]
      · simp at hb

end Sys2Proof
end

