-- ==== Sys2Proof/Laws/Frame.lean ====
section
/-! SUPPORT. Opcodes, headers and frames: the opcode map is unambiguous (R53), a header's fields come back (R49), and when a
frame is there (R54). -/

namespace Sys2Proof

/-- No two opcodes share a byte, and each is found by its own (R53). -/
@[simp] theorem Op.ofByte_code (o : Op) : Op.ofByte o.code = some o := by cases o <;> decide

/-- A byte found in the map is the opcode's own. -/
theorem Op.code_of_ofByte {b : BitVec 8} {o : Op} (h : Op.ofByte b = some o) : o.code = b := by
  have := List.find?_some h
  simpa using this

theorem Op.code_injective : Function.Injective Op.code := fun a b h => by
  have := congrArg Op.ofByte h
  simpa using this

/-- Bit i of a header: OPC below, then RSV = 0, then N (R49). -/
theorem headerOf_bit (o : Op) (n i : Nat) :
    (headerOf o n).getLsbD i =
      if i < 8 then o.code.getLsbD i else if i < 16 then false else (BitVec.ofNat 16 n).getLsbD (i - 16) := by
  change BitVec.getLsbD (w := 16 + 8 + 8) (BitVec.ofNat 16 n ++ (0 : BitVec 8) ++ o.code) i = _
  rw [BitVec.getLsbD_append, BitVec.getLsbD_append]
  split
  · rfl
  · split
    · rw [if_pos (by omega)]; simp
    · rw [if_neg (by omega), show i - 8 - 8 = i - 16 by omega]

@[simp] theorem headerOf_opc (o : Op) (n : Nat) : Header.opc (headerOf o n) = o.code := by
  apply BitVec.eq_of_getLsbD_eq
  intro i hi
  rw [Header.opc, BitVec.getLsbD_extractLsb', headerOf_bit]
  simp [hi]

@[simp] theorem headerOf_rsv (o : Op) (n : Nat) : Header.rsv (headerOf o n) = 0 := by
  apply BitVec.eq_of_getLsbD_eq
  intro i hi
  rw [Header.rsv, BitVec.getLsbD_extractLsb', headerOf_bit, if_neg (by omega), if_pos (by omega)]
  simp

@[simp] theorem headerOf_count (o : Op) (n : Nat) : Header.count (headerOf o n) = n % 65536 := by
  have : (headerOf o n).extractLsb' 16 16 = BitVec.ofNat 16 n := by
    apply BitVec.eq_of_getLsbD_eq
    intro i hi
    rw [BitVec.getLsbD_extractLsb', headerOf_bit, if_neg (by omega), if_neg (by omega)]
    simp [hi]
  rw [Header.count, this, BitVec.toNat_ofNat]

/-- A header whose RSV is 0 is the one its OPC and N make. -/
theorem headerOf_fields (h : Header) (o : Op) (ho : o.code = Header.opc h) (hr : Header.rsv h = 0) :
    headerOf o (Header.count h) = h := by
  apply BitVec.eq_of_getLsbD_eq
  intro i hi
  have hr' : ∀ j, j < 8 → h.getLsbD (8 + j) = false := by
    intro j hj
    have := congrArg (fun b => b.getLsbD j) hr
    simpa [Header.rsv, hj] using this
  rw [headerOf_bit, ho, Header.opc, Header.count, BitVec.ofNat_toNat]
  split
  · next h8 => simp [h8]
  · split
    · have := hr' (i - 8) (by omega)
      rw [show 8 + (i - 8) = i by omega] at this
      rw [this]
    · simp [show 16 + (i - 16) = i by omega]
      omega

/-- The frame on the channel, in terms of its header. -/
theorem takeFrame_eq (c : Config) (bs : List Byte) :
    takeFrame c bs =
      if 4 ≤ bs.length then
        let h : Header := BitVec.ofNat 32 (wordOfBytes c.byteOrder (bs.take 4))
        (takeWords c (Header.count h) (bs.drop 4)).map fun r => (⟨Header.opc h, Header.rsv h, r.1⟩, r.2)
      else none := by
  rw [takeFrame, takeBytes_eq]
  split
  · next h => split at h <;> simp_all
  · next h =>
    split at h
    · simp only [Option.some.injEq, Prod.mk.injEq] at h
      simp_all
    · simp at h

/-- The number of operand words of a frame is the header's N, and a frame leaves what follows it (R48, R54). -/
theorem takeFrame_some {c : Config} {bs rest : List Byte} {f : Frame} (h : takeFrame c bs = some (f, rest)) :
    4 ≤ bs.length ∧
    ∃ hd : Header, hd = BitVec.ofNat 32 (wordOfBytes c.byteOrder (bs.take 4)) ∧
      f.opc = Header.opc hd ∧ f.rsv = Header.rsv hd ∧ f.words.length = Header.count hd ∧
      takeWords c (Header.count hd) (bs.drop 4) = some (f.words, rest) := by
  rw [takeFrame_eq] at h
  split at h
  · next hl =>
    obtain ⟨⟨ws, r⟩, hw, hf⟩ := Option.map_eq_some_iff.1 h
    simp only [Prod.mk.injEq] at hf
    obtain ⟨rfl, rfl⟩ := hf
    exact ⟨hl, _, rfl, rfl, rfl, ((takeWords_spec _ _ _).2 _ _ hw).1, hw⟩
  · simp at h

/-- What operand words an opcode takes, by the instruction they make (R50). -/
theorem instrOf_ok {o : Op} {ws : List Nat} {i : Instr} : instrOf o ws = .ok i ↔ i.op = o ∧ i.words = ws := by
  constructor
  · intro h
    rcases ws with _ | ⟨a, _ | ⟨b, ws⟩⟩ <;> cases o <;> first
      | (obtain rfl := Except.ok.inj h; exact ⟨rfl, rfl⟩)
      | exact nomatch h
  · rintro ⟨rfl, rfl⟩
    cases i <;> rfl

/-- A frame decodes to an instruction exactly when it is that instruction's frame (R53). -/
theorem decodeFrame_ok {f : Frame} {i : Instr} : decodeFrame f = .ok i ↔ f = i.frame := by
  constructor
  · intro h
    rcases f with ⟨opc, rsv, ws⟩
    simp only [decodeFrame] at h
    split at h
    · simp at h
    · next o ho =>
      obtain rfl := Op.code_of_ofByte ho
      split at h
      · next hr =>
        obtain ⟨rfl, rfl⟩ := instrOf_ok.1 h
        rw [Instr.frame, hr]
      · simp at h
  · rintro rfl
    simp [decodeFrame, Instr.frame, instrOf_ok]

end Sys2Proof
end

