-- ==== Sys2Proof/Laws/PerInstr.lean ====
section
/-! SUPPORT. Statements about every instruction, one lemma per constructor (LAWS.json). -/

namespace Sys2Proof.Laws.FrameDecodes

/-- The decoder reads from an instruction's frame that instruction, and its header says its opcode, RSV = 0 and its count. -/
def Statement (i : Instr) : Prop :=
  decodeFrame i.frame = .ok i ∧ Header.opc i.header = i.op.code ∧ Header.rsv i.header = 0 ∧
    (i.countFits = true → Header.count i.header = i.words.length)

theorem of_fields (i : Instr) : Statement i := by
  refine ⟨decodeFrame_ok.2 rfl, headerOf_opc _ _, headerOf_rsv _ _, fun h => ?_⟩
  rw [Instr.countFits, decide_eq_true_eq] at h
  rw [Instr.header, headerOf_count, Nat.mod_eq_of_lt (by omega)]

theorem nop : Statement .nop := of_fields _
theorem status : Statement .status := of_fields _
theorem init : Statement .init := of_fields _
theorem absorb (v : Nat) : Statement (.absorb v) := of_fields _
theorem squeeze : Statement .squeeze := of_fields _
theorem hash (m : List Nat) : Statement (.hash m) := of_fields _
theorem perm (x : List Nat) : Statement (.perm x) := of_fields _
theorem fold (w : List Nat) : Statement (.fold w) := of_fields _
theorem capiv : Statement .capiv := of_fields _
theorem padding : Statement .padding := of_fields _

end Sys2Proof.Laws.FrameDecodes
end

