-- ==== Sys2Proof/Laws/Ops.lean ====
section
/-! SUPPORT. What the shared operations can do, each said once: the order of checks, how a command runs, and what a command
that runs does (`Effect`). Later proofs split on `exec_next_cases` and unfold no meaning. -/

namespace Sys2Proof.Machine

variable {op : Op} {checks : List (Bool × FaultCode)} {act : State → Host.Outcome State Fault Refusal} {s t : State}

/-- No fault is found exactly when no condition holds. -/
theorem firstFault_eq_none : firstFault checks = none ↔ ∀ p ∈ checks, p.1 = false := by
  induction checks with
  | nil => simp [firstFault]
  | cons p ps ih =>
    rcases p with ⟨b, c⟩
    cases b <;> simp [firstFault, ih]

/-- A fault found is one of those listed. -/
theorem mem_of_firstFault {code : FaultCode} (h : firstFault checks = some code) : (true, code) ∈ checks := by
  induction checks with
  | nil => simp [firstFault] at h
  | cons p ps ih =>
    rcases p with ⟨b, c⟩
    cases b
    · simp [firstFault] at h; simp [ih h]
    · simp [firstFault] at h; simp [h]

theorem command_refused (h : s.fault = true) : command op checks act s = .next (refuse op.code s) := by
  simp [command, h]

theorem command_faults {code : FaultCode} (h : s.fault = false) (hc : firstFault checks = some code) :
    command op checks act s = .next (raiseFault op.code code s) := by simp [command, h, hc]

theorem command_runs (h : s.fault = false) (hc : firstFault checks = none) : command op checks act s = act s := by
  simp [command, h, hc]

/-- The three ways a command ends in a next state. -/
theorem command_next_cases (h : command op checks act s = .next t) :
    (s.fault = true ∧ t = refuse op.code s) ∨
    (s.fault = false ∧ ∃ code, firstFault checks = some code ∧ t = raiseFault op.code code s) ∨
    (s.fault = false ∧ firstFault checks = none ∧ act s = .next t) := by
  cases hf : s.fault
  · cases hc : firstFault checks with
    | none => rw [command_runs hf hc] at h; exact .inr (.inr ⟨rfl, rfl, h⟩)
    | some code =>
      rw [command_faults hf hc] at h
      exact .inr (.inl ⟨rfl, code, rfl, (Host.Outcome.next.inj h).symm⟩)
  · rw [command_refused hf] at h
    exact .inl ⟨rfl, (Host.Outcome.next.inj h).symm⟩

/-! ### Each meaning as a command with its checks in order -/

theorem exec_nop (s : State) : exec .nop s = command .nop [] (fun s => .next (respondOk .nop [] s)) s := rfl

theorem exec_status (s : State) : exec .status s = .next (respondOk .status [(statusWord s).toNat] s) := rfl

theorem exec_init (s : State) : exec .init s =
    command .init (initChecks s.cfg) (fun s => .next (respondOk .init [] (newInstance s))) s := rfl

theorem exec_absorb (v : Nat) (s : State) : exec (.absorb v) s =
    command .absorb [(badF1 s.cfg v, .badOperand), (notInit s, .notInit), (isConsumed s, .consumed)]
      (fun s => .next (respondOk .absorb [] { absorbStep v s with lc := .duplex })) s := rfl

theorem exec_squeeze (s : State) : exec .squeeze s =
    command .squeeze [(notInit s, .notInit), (isConsumed s, .consumed)] (squeezeAndRespond .squeeze .duplex) s := rfl

theorem exec_hash (m : List Nat) (s : State) : exec (.hash m) s =
    command .hash
      [(badFV s.cfg m, .badOperand), (notInit s, .notInit), (isConsumed s, .consumed),
       (afterDuplex s, .hashAfterDuplex), (m.length != s.cfg.l, .msgLen)]
      (fun s => squeezeAndRespond .hash .consumed (absorbAll m s)) s := rfl

theorem exec_perm (x : List Nat) (s : State) : exec (.perm x) s =
    command .perm [(badFT s.cfg x, .badOperand), (notInit s, .notInit)]
      (fun s => .next (respondOk .perm (permute s.cfg x) s)) s := rfl

theorem exec_fold (w : List Nat) (s : State) : exec (.fold w) s =
    command .fold [(badFF s.cfg w, .badOperand), (notInit s, .notInit)]
      (fun s => .next (respondOk .fold
        (fold s.cfg (foldState s.cfg w) (maskedBuffer s.cfg (foldValues s.cfg w) (foldMask s.cfg w))) s)) s := rfl

theorem exec_capiv (s : State) : exec .capiv s =
    command .capiv [(notInit s, .notInit)] (fun s => .next (respondOk .capiv [capIv s.cfg] s)) s := rfl

theorem exec_padding (s : State) : exec .padding s =
    command .padding [(notInit s, .notInit)]
      (fun s => .next (respondOk .padding (bufferValues (pad s.cfg) ++ [bufferMask (pad s.cfg)]) s)) s := rfl

/-- An instance that the sponge commands may use exists. -/
abbrev Usable (s : State) : Prop := s.lc = .ready ∨ s.lc = .duplex

theorem usable_iff : Usable s ↔ notInit s = false ∧ isConsumed s = false := by
  cases h : s.lc <;> simp [Usable, notInit, isConsumed, h]

/-- What each command does when it is neither refused nor at fault. -/
inductive Effect : Instr → State → State → Prop where
  | nop (s : State) : Effect .nop s (respondOk .nop [] s)
  | status (s : State) : Effect .status s (respondOk .status [(statusWord s).toNat] s)
  | init (s : State) : initPasses s.cfg → Effect .init s (respondOk .init [] (newInstance s))
  | absorb (s : State) (v : Nat) : canonical s.cfg v = true → Usable s →
      Effect (.absorb v) s (respondOk .absorb [] { absorbStep v s with lc := .duplex })
  | squeeze (s s' : State) (u : Nat) : Usable s → squeezeStep s = some (u, s') →
      Effect .squeeze s (respondOk .squeeze [u] { s' with lc := .duplex })
  | hash (s s' : State) (m : List Nat) (u : Nat) : valuesOk s.cfg m = true → s.lc = .ready → m.length = s.cfg.l →
      squeezeStep (absorbAll m s) = some (u, s') →
      Effect (.hash m) s (respondOk .hash [u] { s' with lc := .consumed })
  | perm (s : State) (x : List Nat) : x.length = s.cfg.t → valuesOk s.cfg x = true → s.lc ≠ .uninit →
      Effect (.perm x) s (respondOk .perm (permute s.cfg x) s)
  | fold (s : State) (w : List Nat) : badFF s.cfg w = false → s.lc ≠ .uninit →
      Effect (.fold w) s (respondOk .fold
        (fold s.cfg (foldState s.cfg w) (maskedBuffer s.cfg (foldValues s.cfg w) (foldMask s.cfg w))) s)
  | capiv (s : State) : s.lc ≠ .uninit → Effect .capiv s (respondOk .capiv [capIv s.cfg] s)
  | padding (s : State) : s.lc ≠ .uninit →
      Effect .padding s (respondOk .padding (bufferValues (pad s.cfg) ++ [bufferMask (pad s.cfg)]) s)

/-- SQUEEZE_STEP's common end answers a next state exactly when the step returns a value. -/
theorem squeezeAndRespond_next {lc : Lifecycle} (h : squeezeAndRespond op lc s = .next t) :
    ∃ u s', squeezeStep s = some (u, s') ∧ t = respondOk op [u] { s' with lc := lc } := by
  unfold squeezeAndRespond at h
  split at h
  · next u s' hu => exact ⟨u, s', hu, (Host.Outcome.next.inj h).symm⟩
  · simp at h

theorem squeezeAndRespond_some {lc : Lifecycle} {u : Nat} {s' : State} (h : squeezeStep s = some (u, s')) :
    squeezeAndRespond op lc s = .next (respondOk op [u] { s' with lc := lc }) := by
  simp [squeezeAndRespond, h]

theorem notInit_eq_false : notInit s = false ↔ s.lc ≠ .uninit := by simp [notInit]

/-- The three things an instruction can do when it answers a next state: it is refused, it raises a fault, or it has
its effect. -/
abbrev Outcomes (i : Instr) (s t : State) : Prop :=
  (s.fault = true ∧ i ≠ .status ∧ t = refuse i.op.code s) ∨
  (s.fault = false ∧ i ≠ .status ∧ ∃ code, code ≠ .none ∧ t = raiseFault i.op.code code s) ∨
  ((s.fault = false ∨ i = .status) ∧ Effect i s t)

/-- A command's outcomes, from what it does once its checks pass. -/
theorem outcomes_of_command {i : Instr} (hi : i ≠ .status) (hc : ∀ p ∈ checks, p.2 ≠ .none)
    (h : command i.op checks act s = .next t)
    (he : (∀ p ∈ checks, p.1 = false) → act s = .next t → Effect i s t) : Outcomes i s t := by
  obtain h | ⟨hf, code, hcode, h⟩ | ⟨hf, hn, h⟩ := command_next_cases h
  · exact .inl ⟨h.1, hi, h.2⟩
  · exact .inr (.inl ⟨hf, hi, code, hc _ (mem_of_firstFault hcode), h⟩)
  · exact .inr (.inr ⟨.inl hf, he (firstFault_eq_none.1 hn) h⟩)

/-- All an instruction can do when it answers a next state. -/
theorem exec_next_cases {i : Instr} (h : exec i s = .next t) : Outcomes i s t := by
  cases i with
  | status =>
    obtain rfl := Host.Outcome.next.inj h
    exact .inr (.inr ⟨.inr rfl, .status s⟩)
  | nop =>
    rw [exec_nop] at h
    refine outcomes_of_command (by simp) (by simp) h fun _ ha => ?_
    obtain rfl := Host.Outcome.next.inj ha
    exact .nop s
  | init =>
    rw [exec_init] at h
    refine outcomes_of_command (by simp) (by simp [initChecks]) h fun hc ha => ?_
    obtain rfl := Host.Outcome.next.inj ha
    exact .init s (firstFault_eq_none.2 hc)
  | absorb v =>
    rw [exec_absorb] at h
    refine outcomes_of_command (by simp) (by simp) h fun hc ha => ?_
    obtain rfl := Host.Outcome.next.inj ha
    simp [badF1] at hc
    exact .absorb s v hc.1 (usable_iff.2 hc.2)
  | squeeze =>
    rw [exec_squeeze] at h
    refine outcomes_of_command (by simp) (by simp) h fun hc ha => ?_
    obtain ⟨u, s', hu, rfl⟩ := squeezeAndRespond_next ha
    simp at hc
    exact .squeeze s s' u (usable_iff.2 hc) hu
  | hash m =>
    rw [exec_hash] at h
    refine outcomes_of_command (by simp) (by simp) h fun hc ha => ?_
    obtain ⟨u, s', hu, rfl⟩ := squeezeAndRespond_next ha
    simp [badFV] at hc
    have hr : s.lc = .ready := by
      cases hl : s.lc <;> simp [notInit, isConsumed, afterDuplex, hl] at hc ⊢
    exact .hash s s' m u hc.1 hr hc.2.2.2.2 hu
  | perm x =>
    rw [exec_perm] at h
    refine outcomes_of_command (by simp) (by simp) h fun hc ha => ?_
    obtain rfl := Host.Outcome.next.inj ha
    simp [badFT, notInit_eq_false] at hc
    exact .perm s x hc.1.1 hc.1.2 hc.2
  | fold w =>
    rw [exec_fold] at h
    refine outcomes_of_command (by simp) (by simp) h fun hc ha => ?_
    obtain rfl := Host.Outcome.next.inj ha
    simp [notInit_eq_false] at hc
    exact .fold s w hc.1 hc.2
  | capiv =>
    rw [exec_capiv] at h
    refine outcomes_of_command (by simp) (by simp) h fun hc ha => ?_
    obtain rfl := Host.Outcome.next.inj ha
    simp [notInit_eq_false] at hc
    exact .capiv s hc
  | padding =>
    rw [exec_padding] at h
    refine outcomes_of_command (by simp) (by simp) h fun hc ha => ?_
    obtain rfl := Host.Outcome.next.inj ha
    simp [notInit_eq_false] at hc
    exact .padding s hc

/-- All a step can do when it answers a next state: reset, wait, run the command received, or reject a frame. -/
theorem step_next_cases (h : step s = .next t) :
    (s.rst = true ∧ t = applyReset s) ∨
    (s.rst = false ∧ configAdmitted s.cfg = true ∧
      ((receive s.cfg s.rx = .waiting ∧ t = s) ∨
        (∃ i rest, receive s.cfg s.rx = .command i rest ∧ exec i { s with rx := rest } = .next t) ∨
        ∃ opc e rest, receive s.cfg s.rx = .rejected opc e rest ∧ t = rejectFrame opc e { s with rx := rest })) := by
  unfold step at h
  split at h
  · next hr => exact .inl ⟨hr, (Host.Outcome.next.inj h).symm⟩
  · next hr =>
    split at h
    · next ha =>
      refine .inr ⟨by simpa using hr, ha, ?_⟩
      split at h
      · next hw => exact .inl ⟨hw, (Host.Outcome.next.inj h).symm⟩
      · next i rest hc => exact .inr (.inl ⟨i, rest, hc, h⟩)
      · next opc e rest hc => exact .inr (.inr ⟨opc, e, rest, hc, (Host.Outcome.next.inj h).symm⟩)
    · simp at h

/-- The two things that happen to a frame that is no command. -/
theorem rejectFrame_cases (opc : BitVec 8) (e : DecodeError) :
    (s.fault = true ∧ rejectFrame opc e s = refuse opc s) ∨
    (s.fault = false ∧ rejectFrame opc e s = raiseFault opc (DecodeError.code e) s ∧ DecodeError.code e ≠ .none) := by
  cases h : s.fault
  · refine .inr ⟨rfl, by simp [rejectFrame, h], by cases e <;> decide⟩
  · exact .inl ⟨rfl, by simp [rejectFrame, h]⟩

end Sys2Proof.Machine
end

