-- ==== Sys2Proof/Laws/Datapath.lean ====
section
/-! SUPPORT. The permutation datapath and the domain unit: lengths, canonical lanes, sums as sums, and what the fold does to
each lane (R17, R63 to R72, R94 to R97). -/

namespace Sys2Proof.Machine

variable {c : Config} {s : List Nat} {b : RateBuffer}

/-! ### Lanes -/

theorem lane_eq (xs : List Nat) (i : Nat) (h : i < xs.length) : lane xs i = xs[i] := by
  simp [lane, List.getD_eq_getElem?_getD, h]

theorem lane_of_getElem? {xs : List Nat} {i x : Nat} (h : xs[i]? = some x) : lane xs i = x := by
  simp [lane, List.getD_eq_getElem?_getD, h]

theorem lane_lt (hp : 1 ≤ c.p) {xs : List Nat} (h : Canonical c xs) (i : Nat) : lane xs i < c.p := by
  by_cases hi : i < xs.length
  · rw [lane_eq _ _ hi]; exact h _ (List.getElem_mem _)
  · rw [lane, List.getD_eq_getElem?_getD, List.getElem?_eq_none (Nat.le_of_not_lt hi)]
    exact hp

/-- The list of a T-list's lanes is the list. -/
theorem map_lane (xs : List Nat) : (List.range xs.length).map (lane xs) = xs := by
  apply List.ext_getElem
  · simp
  · intro i _ h
    simp [lane_eq _ _ h]

theorem lane_map_range (f : Nat → Nat) {n i : Nat} (h : i < n) : lane ((List.range n).map f) i = f i := by
  rw [lane_eq _ _ (by simpa using h)]; simp

/-! ### Field arithmetic (R63) -/

theorem addF_lt (hp : 1 ≤ c.p) (x y : Nat) : addF c x y < c.p := Nat.mod_lt _ hp
theorem mulF_lt (hp : 1 ≤ c.p) (x y : Nat) : mulF c x y < c.p := Nat.mod_lt _ hp

theorem foldl_addF (xs : List Nat) (a : Nat) : xs.foldl (addF c) (a % c.p) = (a + xs.sum) % c.p := by
  induction xs generalizing a with
  | nil => simp
  | cons x xs ih =>
    simp only [List.foldl_cons, List.sum_cons, addF, Nat.mod_add_mod]
    rw [ih, Nat.add_assoc]

/-- The running sum in F is the sum, reduced once. -/
theorem sumF_eq (xs : List Nat) : sumF c xs = xs.sum % c.p := by
  have := foldl_addF (c := c) xs 0
  simpa [sumF] using this

theorem sumF_lt (hp : 1 ≤ c.p) (xs : List Nat) : sumF c xs < c.p := by
  rw [sumF_eq]; exact Nat.mod_lt _ hp

/-! ### Rounds -/

@[simp] theorem arc_length (r : Nat) : (arc c s r).length = c.t := by simp [arc]
@[simp] theorem sboxFull_length : (sboxFull c s).length = c.t := by simp [sboxFull]
@[simp] theorem sboxPartial_length : (sboxPartial c s).length = c.t := by simp [sboxPartial]
@[simp] theorem mdsMix_length : (mdsMix c s).length = c.t := by simp [mdsMix]
@[simp] theorem round_length (r : Nat) : (round c s r).length = c.t := by
  simp only [round]; split <;> simp [partialRound, fullRound]

/-- Lane i of the MDS layer is row i of the matrix times the state (R68). -/
theorem mdsMix_lane {i : Nat} (h : i < c.t) :
    (mdsMix c s)[i]? = some ((∑ j ∈ Finset.range c.t, mdsAt c i j * lane s j) % c.p) := by
  simp only [mdsMix, List.getElem?_map, List.getElem?_range h, Option.map_some, sumF_eq]
  congr 1
  rw [← List.sum_toFinset _ (List.nodup_range), Finset.sum_nat_mod, Finset.sum_nat_mod (Finset.range c.t)]
  simp [mulF, List.toFinset_range]

theorem mdsMix_canonical (hp : 1 ≤ c.p) : Canonical c (mdsMix c s) := by
  intro x hx
  simp only [mdsMix, List.mem_map] at hx
  obtain ⟨i, -, rfl⟩ := hx
  exact sumF_lt hp _

theorem round_lanesOk (hp : 1 ≤ c.p) (r : Nat) : LanesOk c (round c s r) := by
  refine ⟨round_length r, ?_⟩
  simp only [round]
  split <;> exact mdsMix_canonical hp

/-- Rounds keep T canonical lanes (R17, R63). -/
theorem foldl_round_lanesOk (hp : 1 ≤ c.p) (rs : List Nat) (h : LanesOk c s) : LanesOk c (rs.foldl (round c) s) := by
  induction rs generalizing s with
  | nil => exact h
  | cons r rs ih => exact ih (round_lanesOk hp r)

/-- PERMUTE of T canonical lanes is T canonical lanes. -/
theorem permute_lanesOk (hp : 1 ≤ c.p) (h : LanesOk c s) : LanesOk c (permute c s) := foldl_round_lanesOk hp _ h

theorem permute_length (h : s.length = c.t) : (permute c s).length = c.t := by
  have : ∀ (rs : List Nat) (s : List Nat), s.length = c.t → (rs.foldl (round c) s).length = c.t := by
    intro rs
    induction rs with
    | nil => exact fun _ h => h
    | cons r rs ih => exact fun s _ => ih _ (round_length r)
  exact this _ _ h

/-! ### The fold (R96) -/

@[simp] theorem fold_length : (fold c s b).length = c.t := by simp [fold]

/-- What the fold does to lane i. -/
def foldLane (c : Config) (s : List Nat) (b : RateBuffer) (i : Nat) : Nat :=
  if i < c.rate then
    match slot b i with
    | some u => addF c (lane s i) u
    | none => lane s i
  else lane s i

theorem fold_eq : fold c s b = (List.range c.t).map (foldLane c s b) := rfl

theorem lane_fold {i : Nat} (h : i < c.t) : lane (fold c s b) i = foldLane c s b i := by
  rw [fold_eq, lane_map_range _ h]

/-- Folds agree when what they do to each lane agrees. -/
theorem fold_congr {s' : List Nat} {b' : RateBuffer} (h : ∀ i, i < c.t → foldLane c s b i = foldLane c s' b' i) :
    fold c s b = fold c s' b' := by
  rw [fold_eq, fold_eq]
  exact List.map_congr_left fun i hi => h i (List.mem_range.1 hi)

/-- Buffers with the same slots below RATE fold alike. -/
theorem fold_congr_slots {b' : RateBuffer} (h : ∀ i, i < c.rate → slot b i = slot b' i) :
    fold c s b = fold c s b' := by
  refine fold_congr fun i _ => ?_
  unfold foldLane
  split
  · next hi => rw [h i hi]
  · rfl

/-- A buffer with no set slot below RATE folds nothing in. -/
theorem fold_unset (hs : s.length = c.t) (h : ∀ i, i < c.rate → slot b i = none) : fold c s b = s := by
  rw [fold_eq, ← hs]
  conv_rhs => rw [← map_lane s]
  refine List.map_congr_left fun i _ => ?_
  unfold foldLane
  split
  · next hi => rw [h i hi]
  · rfl

theorem fold_lanesOk (hp : 1 ≤ c.p) (h : LanesOk c s) : LanesOk c (fold c s b) := by
  refine ⟨fold_length, fun x hx => ?_⟩
  rw [fold_eq, List.mem_map] at hx
  obtain ⟨i, -, rfl⟩ := hx
  unfold foldLane
  split
  · split
    · exact addF_lt hp _ _
    · exact lane_lt hp h.2 i
  · exact lane_lt hp h.2 i

theorem duplexLanes_lanesOk (hp : 1 ≤ c.p) (h : LanesOk c s) : LanesOk c (duplexLanes c s b) :=
  permute_lanesOk hp (fold_lanesOk hp h)

/-! ### The domain -/

theorem capIv_lt (hp : 1 ≤ c.p) : capIv c < c.p := Nat.mod_lt _ hp

theorem initialLanes_lanesOk (hp : 1 ≤ c.p) (ht : c.t = c.rate + 1) : LanesOk c (initialLanes c) := by
  refine ⟨by simp [initialLanes, ht], fun x hx => ?_⟩
  simp only [initialLanes, List.mem_append, List.mem_replicate, List.mem_singleton] at hx
  obtain ⟨-, rfl⟩ | rfl := hx
  · exact hp
  · exact capIv_lt hp

/-- PADDING's value words are all zero (R101). -/
theorem bufferValues_pad : bufferValues (pad c) = List.replicate c.rate 0 := by
  rw [List.eq_replicate_iff]
  refine ⟨by simp [bufferValues, pad], fun x hx => ?_⟩
  simp only [bufferValues, pad, List.map_map, List.mem_map] at hx
  obtain ⟨i, -, rfl⟩ := hx
  simp only [Function.comp]
  split <;> rfl

/-- Bit i of a buffer's mask says slot i is set (R52, R101). -/
theorem bufferMask_testBit (b : RateBuffer) (i : Nat) : (bufferMask b).testBit i = (slot b i).isSome := by
  induction b generalizing i with
  | nil => simp [bufferMask, slot]
  | cons o b ih =>
    cases i with
    | zero => cases o <;> simp [bufferMask, slot, Nat.testBit_zero]
    | succ i =>
      rw [Nat.testBit_succ]
      have : (bufferMask (o :: b)) / 2 = bufferMask b := by
        simp only [bufferMask]; split <;> omega
      rw [this, ih]
      simp [slot]

end Sys2Proof.Machine
end

