-- ==== Sys2Proof/Laws/Sponge.lean ====
section
/-! SUPPORT. The sponge controller: which slot is first (R78, R82), what one ABSORB_STEP and one SQUEEZE_STEP do in each case
(R78 to R84), and what they leave alone. -/

namespace Sys2Proof.Machine

variable {c : Config} {b : RateBuffer} {s t : State} {i : Nat} {u v : Nat}

/-! ### Slots -/

theorem slot_eq_some : slot b i = some v ↔ b[i]? = some (some v) := by
  simp only [slot, List.getD_eq_getElem?_getD]
  cases h : b[i]? <;> simp

theorem slot_of_getElem? {o : Option Nat} (h : b[i]? = some o) : slot b i = o := by
  simp [slot, List.getD_eq_getElem?_getD, h]

theorem getElem?_of_slot (h : i < b.length) : b[i]? = some (slot b i) := by
  simp [slot, List.getD_eq_getElem?_getD, h]

theorem slot_none_of_le (h : b.length ≤ i) : slot b i = none := by
  simp [slot, List.getD_eq_getElem?_getD, List.getElem?_eq_none h]

@[simp] theorem slot_unset : slot (unsetBuffer c) i = none := by
  by_cases h : i < c.rate <;> simp [slot, unsetBuffer, List.getD_eq_getElem?_getD, h]

@[simp] theorem slot_nil : slot [] i = none := rfl

@[simp] theorem slot_fresh : slot (freshBuffer c v) i = if i = 0 then some v else none := by
  cases i with
  | zero => rfl
  | succ i => by_cases h : i < c.rate - 1 <;> simp [slot, freshBuffer, List.getD_eq_getElem?_getD, h]

theorem slot_set (h : i < b.length) (o : Option Nat) (j : Nat) :
    slot (b.set i o) j = if j = i then o else slot b j := by
  simp only [slot, List.getD_eq_getElem?_getD, List.getElem?_set]
  by_cases hij : i = j
  · subst hij; simp [h]
  · simp [hij, Ne.symm hij]

theorem slot_map_some (m : List Nat) (i : Nat) : slot (m.map some) i = m[i]? := by
  simp only [slot, List.getD_eq_getElem?_getD, List.getElem?_map]
  cases m[i]? <;> rfl

theorem slot_map_range (f : Nat → Option Nat) (n i : Nat) :
    slot ((List.range n).map f) i = if i < n then f i else none := by
  by_cases h : i < n <;> simp [slot, List.getD_eq_getElem?_getD, h]

theorem firstUnset_eq_some : firstUnset b = some i ↔ b[i]? = some none ∧ ∀ j, j < i → b[j]? ≠ some none := by
  induction b generalizing i with
  | nil => simp [firstUnset]
  | cons o b ih =>
    cases o with
    | none => cases i <;> simp [firstUnset]; exact fun _ => ⟨0, by omega, rfl⟩
    | some w =>
      cases i with
      | zero => simp [firstUnset]
      | succ i =>
        simp only [firstUnset, Option.map_eq_some_iff, Nat.add_right_cancel_iff, exists_eq_right, ih,
          List.getElem?_cons_succ]
        refine and_congr_right fun _ => ⟨fun h j hj => ?_, fun h j hj => h (j + 1) (by omega)⟩
        cases j with
        | zero => simp
        | succ j => exact h j (by omega)

theorem firstUnset_eq_none : firstUnset b = none ↔ ∀ o ∈ b, o ≠ none := by
  induction b with
  | nil => simp [firstUnset]
  | cons o b ih => cases o <;> simp [firstUnset, ih]

theorem firstSet_eq_some : firstSet b = some (i, u) ↔ b[i]? = some (some u) ∧ ∀ j, j < i → b[j]? = some none := by
  induction b generalizing i with
  | nil => simp [firstSet]
  | cons o b ih =>
    cases o with
    | some w => cases i <;> simp [firstSet]; exact fun _ => ⟨0, by omega, by simp⟩
    | none =>
      cases i with
      | zero => simp [firstSet]
      | succ i =>
        have : firstSet (none :: b) = some (i + 1, u) ↔ firstSet b = some (i, u) := by
          cases h : firstSet b <;> simp [firstSet, h, Prod.ext_iff]
        rw [this, ih, List.getElem?_cons_succ]
        refine and_congr_right fun _ => ⟨fun h j hj => ?_, fun h j hj => h (j + 1) (by omega)⟩
        cases j with
        | zero => rfl
        | succ j => exact h j (by omega)

theorem firstSet_eq_none : firstSet b = none ↔ ∀ o ∈ b, o = none := by
  induction b with
  | nil => simp [firstSet]
  | cons o b ih => cases o <;> simp [firstSet, ih]

theorem mode_cases (s : State) : s.mode = .absorbing ∨ s.mode = .squeezing := by cases s.mode <;> simp

/-! ### ABSORB_STEP -/

theorem absorbStep_fill (hm : s.mode = .absorbing) (h : firstUnset s.buf = some i) :
    absorbStep v s = { s with buf := s.buf.set i (some v) } := by simp [absorbStep, absorbCase, hm, h]

theorem absorbStep_overflow (hm : s.mode = .absorbing) (h : firstUnset s.buf = none) :
    absorbStep v s =
      { s with lanes := duplexLanes s.cfg s.lanes s.buf, mode := .absorbing, buf := freshBuffer s.cfg v } := by
  simp [absorbStep, absorbCase, hm, h, duplexRound]

theorem absorbStep_switch (hm : s.mode = .squeezing) :
    absorbStep v s = { s with mode := .absorbing, buf := freshBuffer s.cfg v } := by
  simp [absorbStep, absorbCase, hm]

/-- The three cases of ABSORB_STEP (R78 to R80). -/
theorem absorbStep_cases (v : Nat) (s : State) :
    (∃ i, s.mode = .absorbing ∧ firstUnset s.buf = some i ∧ absorbStep v s = { s with buf := s.buf.set i (some v) }) ∨
    (s.mode = .absorbing ∧ firstUnset s.buf = none ∧ absorbStep v s =
      { s with lanes := duplexLanes s.cfg s.lanes s.buf, mode := .absorbing, buf := freshBuffer s.cfg v }) ∨
    (s.mode = .squeezing ∧ absorbStep v s = { s with mode := .absorbing, buf := freshBuffer s.cfg v }) := by
  obtain hm | hm := mode_cases s
  · cases h : firstUnset s.buf with
    | none => exact .inr (.inl ⟨hm, rfl, absorbStep_overflow hm h⟩)
    | some i => exact .inl ⟨i, hm, rfl, absorbStep_fill hm h⟩
  · exact .inr (.inr ⟨hm, absorbStep_switch hm⟩)

/-- ABSORB_STEP writes STATE, BUF and MODE only, and leaves the mode Absorbing. -/
theorem absorbStep_frame (v : Nat) (s : State) :
    ∃ lanes buf, absorbStep v s = { s with lanes := lanes, buf := buf, mode := .absorbing } := by
  obtain ⟨i, hm, -, h⟩ | ⟨-, -, h⟩ | ⟨-, h⟩ := absorbStep_cases v s
  · exact ⟨s.lanes, _, by rw [h, ← hm]⟩
  · exact ⟨_, _, h⟩
  · exact ⟨s.lanes, _, h⟩

/-- Absorbing a message writes STATE, BUF and MODE only. -/
theorem absorbAll_frame (m : List Nat) (s : State) :
    ∃ lanes buf mode, absorbAll m s = { s with lanes := lanes, buf := buf, mode := mode } := by
  induction m generalizing s with
  | nil => exact ⟨_, _, _, rfl⟩
  | cons v m ih =>
    obtain ⟨l, b, hv⟩ := absorbStep_frame v s
    obtain ⟨l', b', m', hm⟩ := ih (absorbStep v s)
    refine ⟨l', b', m', ?_⟩
    change absorbAll m (absorbStep v s) = _
    rw [hm, hv]

@[simp] theorem absorbStep_cfg : (absorbStep v s).cfg = s.cfg := by
  obtain ⟨l, b, h⟩ := absorbStep_frame v s
  rw [h]

/-- Two absorbs in order are one after the other. -/
theorem absorbAll_append (m₁ m₂ : List Nat) (s : State) : absorbAll (m₁ ++ m₂) s = absorbAll m₂ (absorbAll m₁ s) := by
  simp [absorbAll]

/-! ### SQUEEZE_STEP -/

/-- The buffer SQUEEZE leaves after a duplex round: rate lane 0 is taken, the others stay set. -/
def drained (c : Config) (lanes : List Nat) : RateBuffer :=
  (List.range c.rate).map fun i => if i = 0 then none else some (lane lanes i)

theorem firstSet_rateBuffer (hr : 1 ≤ c.rate) (lanes : List Nat) :
    firstSet (rateBuffer c lanes) = some (0, lane lanes 0) := by
  rw [firstSet_eq_some]
  simp [rateBuffer, List.getElem?_range hr]

theorem rateBuffer_set_zero (lanes : List Nat) : (rateBuffer c lanes).set 0 none = drained c lanes := by
  apply List.ext_getElem
  · simp [rateBuffer, drained]
  · intro j h₁ h₂
    rcases j with _ | j <;> simp [rateBuffer, drained]

theorem squeezeLoop_take (hm : s.mode = .squeezing) (h : firstSet s.buf = some (i, u)) (n : Nat) :
    squeezeLoop (n + 1) s = some (u, { s with buf := s.buf.set i none }) := by
  simp [squeezeLoop, squeezeCase, hm, h]

theorem squeezeLoop_run (hm : s.mode = .absorbing) (hr : 1 ≤ s.cfg.rate) (n : Nat) :
    squeezeLoop (n + 2) s = some (lane (duplexLanes s.cfg s.lanes s.buf) 0,
      { s with
        lanes := duplexLanes s.cfg s.lanes s.buf, mode := .squeezing,
        buf := drained s.cfg (duplexLanes s.cfg s.lanes s.buf) }) := by
  rw [squeezeLoop]
  simp only [squeezeCase, hm]
  rw [squeezeLoop_take (by simp) (i := 0) (u := lane (duplexLanes s.cfg s.lanes s.buf) 0)
    (by simpa using firstSet_rateBuffer hr _)]
  simp [squeezeRun, duplexRound, rateBuffer_set_zero]

/-- SQUEEZE_STEP from Absorbing: S1 then S2 (R81). -/
theorem squeezeStep_absorbing (hm : s.mode = .absorbing) (hr : 1 ≤ s.cfg.rate) :
    squeezeStep s = some (lane (duplexLanes s.cfg s.lanes s.buf) 0,
      { s with
        lanes := duplexLanes s.cfg s.lanes s.buf, mode := .squeezing,
        buf := drained s.cfg (duplexLanes s.cfg s.lanes s.buf) }) := squeezeLoop_run hm hr 1

/-- SQUEEZE_STEP with a set slot: S2 (R82). -/
theorem squeezeStep_take (hm : s.mode = .squeezing) (h : firstSet s.buf = some (i, u)) :
    squeezeStep s = some (u, { s with buf := s.buf.set i none }) := squeezeLoop_take hm h 2

/-- SQUEEZE_STEP from an empty Squeezing buffer: S3, S1, S2 (R83). -/
theorem squeezeStep_refill (hm : s.mode = .squeezing) (h : firstSet s.buf = none) (hr : 1 ≤ s.cfg.rate) :
    squeezeStep s = some (lane (duplexLanes s.cfg s.lanes (unsetBuffer s.cfg)) 0,
      { s with
        lanes := duplexLanes s.cfg s.lanes (unsetBuffer s.cfg), mode := .squeezing,
        buf := drained s.cfg (duplexLanes s.cfg s.lanes (unsetBuffer s.cfg)) }) := by
  rw [squeezeStep, squeezeLoop]
  simp only [squeezeCase, hm, h]
  rw [squeezeLoop_run (by rfl) (by exact hr) 0]

/-- The three ways SQUEEZE_STEP returns, when RATE ≥ 1 (R84). -/
theorem squeezeStep_cases (hr : 1 ≤ s.cfg.rate) :
    ∃ u t, squeezeStep s = some (u, t) ∧
      ((∃ i, s.mode = .squeezing ∧ firstSet s.buf = some (i, u) ∧ t = { s with buf := s.buf.set i none }) ∨
        (∃ b, (s.mode = .absorbing ∧ b = s.buf ∨ s.mode = .squeezing ∧ firstSet s.buf = none ∧ b = unsetBuffer s.cfg) ∧
          u = lane (duplexLanes s.cfg s.lanes b) 0 ∧
          t = { s with
            lanes := duplexLanes s.cfg s.lanes b, mode := .squeezing,
            buf := drained s.cfg (duplexLanes s.cfg s.lanes b) })) := by
  obtain hm | hm := mode_cases s
  · exact ⟨_, _, squeezeStep_absorbing hm hr, .inr ⟨_, .inl ⟨hm, rfl⟩, rfl, rfl⟩⟩
  · cases h : firstSet s.buf with
    | none => exact ⟨_, _, squeezeStep_refill hm h hr, .inr ⟨_, .inr ⟨hm, rfl, rfl⟩, rfl, rfl⟩⟩
    | some p => exact ⟨_, _, squeezeStep_take hm h, .inl ⟨p.1, hm, rfl, rfl⟩⟩

/-- SQUEEZE_STEP writes STATE, BUF and MODE only, and leaves the mode Squeezing. -/
theorem squeezeLoop_frame (n : Nat) (s : State) (h : squeezeLoop n s = some (u, t)) :
    ∃ lanes buf, t = { s with lanes := lanes, buf := buf, mode := .squeezing } := by
  induction n generalizing s with
  | zero => simp [squeezeLoop] at h
  | succ n ih =>
    rw [squeezeLoop] at h
    split at h
    · obtain ⟨l, b, ht⟩ := ih _ h
      exact ⟨l, b, by rw [ht]; rfl⟩
    · next i w hc =>
      simp only [Option.some.injEq, Prod.mk.injEq] at h
      have hm : s.mode = .squeezing := by
        cases hm : s.mode
        · simp [squeezeCase, hm] at hc
        · rfl
      exact ⟨s.lanes, _, by rw [← h.2, ← hm]⟩
    · obtain ⟨l, b, ht⟩ := ih _ h
      exact ⟨l, b, by rw [ht]⟩

end Sys2Proof.Machine
end

