-- ==== Sys2Proof/Laws/Effects.lean ====
section
/-! SUPPORT. What a step does with a frame, the operand checks against well-formedness, and the frame of every effect: what a
command that runs leaves alone, and what becomes of LC (R43, R104, R119). -/

namespace Sys2Proof.Machine

/-- A whole frame on the channel is decoded, and run or rejected (R54). -/
theorem step_frame {s : State} {f : Frame} {rest : List Byte} (hr : s.rst = false) (ha : configAdmitted s.cfg = true)
    (h : takeFrame s.cfg s.rx = some (f, rest)) : step s =
      match decodeFrame f with
      | .ok i => exec i { s with rx := rest }
      | .error e => .next (rejectFrame f.opc e { s with rx := rest }) := by
  simp only [step, hr, ha, receive, h]
  cases decodeFrame f <;> rfl

/-- A frame of a defined opcode: RSV, then N (R119). -/
theorem decode_op {f : Frame} {o : Op} (ho : Op.ofByte f.opc = some o) :
    decodeFrame f = if f.rsv = 0 then instrOf o f.words else .error .reservedBits := by
  simp [decodeFrame, ho]

/-- A defined opcode with the wrong operand words has the wrong count. -/
theorem instrOf_error {o : Op} {ws : List Nat} {e : DecodeError} (h : instrOf o ws = .error e) : e = .wrongCount := by
  rcases ws with _ | ⟨a, _ | ⟨b, ws⟩⟩ <;> cases o <;> first
      | exact (Except.error.inj h).symm
      | simp [instrOf] at h

/-! ### The operand checks are well-formedness (R50 to R52, R119) -/

theorem badF1_ok {c : Config} {v : Nat} (h : (Instr.absorb v).operandsOk c = true) : badF1 c v = false := by
  simp [Instr.operandsOk, Instr.countOk, Instr.wordsFit, Instr.words, Instr.valuesCanonical, Instr.valueWords, Instr.maskOk] at h
  simp [badF1, canonical, h]

theorem badFV_ok {c : Config} {v : List Nat} (h : (Instr.hash v).operandsOk c = true) : badFV c v = false := by
  simp [Instr.operandsOk, Instr.countOk, Instr.wordsFit, Instr.words, Instr.valuesCanonical, Instr.valueWords, Instr.maskOk] at h
  simp only [badFV, Bool.not_eq_false', valuesOk_iff]
  exact fun w hw => ⟨h.1 w hw, h.2 w hw⟩

theorem badFT_ok {c : Config} {v : List Nat} (h : (Instr.perm v).operandsOk c = true) : badFT c v = false := by
  simp [Instr.operandsOk, Instr.countOk, Instr.wordsFit, Instr.words, Instr.valuesCanonical, Instr.valueWords, Instr.maskOk] at h
  simp only [badFT, Bool.or_eq_false_iff, bne_eq_false_iff_eq, Bool.not_eq_false', valuesOk_iff]
  exact ⟨h.1.1, fun w hw => ⟨h.1.2 w hw, h.2 w hw⟩⟩

theorem badFF_ok {c : Config} {w : List Nat} (h : (Instr.fold w).operandsOk c = true) : badFF c w = false := by
  simp [Instr.operandsOk, Instr.countOk, Instr.wordsFit, Instr.words, Instr.valuesCanonical, Instr.valueWords, Instr.maskOk] at h
  obtain ⟨⟨⟨h1, h2⟩, h3⟩, h4⟩ := h
  have hd : w.drop (c.t + c.rate) = [foldMask c w] := by
    rw [foldMask, lane_eq _ _ (by omega), List.drop_eq_getElem_cons (by omega), List.drop_eq_nil_of_le (by omega)]
  have hm : foldMask c w ∈ w := List.mem_of_mem_drop (i := c.t + c.rate) (by rw [hd]; simp)
  simp only [badFF, Bool.or_eq_false_iff, bne_eq_false_iff_eq, Bool.not_eq_false', valuesOk_iff, maskOk, Bool.and_eq_true, decide_eq_true_eq]
  exact ⟨⟨h1, fun x hx => ⟨h2 x (List.mem_of_mem_take hx), h3 x hx⟩⟩, h2 _ hm, h4 _ (by rw [hd]; simp)⟩

/-- A command whose operands are not well formed faults with BAD_OPERAND (R119). -/
theorem exec_badOperand {i : Instr} {s : State} (hf : s.fault = false) (h : i.operandsOk s.cfg = false) :
    exec i s = .next (raiseFault i.op.code .badOperand s) := by
  cases i <;> simp [Instr.operandsOk, Instr.countOk, Instr.wordsFit, Instr.words, Instr.valuesCanonical, Instr.valueWords, Instr.maskOk] at h
  case absorb v =>
    rw [exec_absorb]
    refine command_faults hf ?_
    have : badF1 s.cfg v = true := by
      simp only [badF1, canonical, Bool.not_eq_true', Bool.and_eq_false_iff, decide_eq_false_iff_not]
      by_cases h2 : v < 2 ^ s.cfg.fw
      · exact .inr (by have := h h2; omega)
      · exact .inl h2
    simp [firstFault, this]
  case hash m =>
    rw [exec_hash]
    refine command_faults hf ?_
    have : badFV s.cfg m = true := by
      simp only [badFV, Bool.not_eq_true', ← Bool.not_eq_true, valuesOk_iff]
      intro hall
      obtain ⟨w, hw, hp⟩ := h (fun w hw => (hall w hw).1)
      have := (hall w hw).2
      omega
    simp [firstFault, this]
  case perm x =>
    rw [exec_perm]
    refine command_faults hf ?_
    have : badFT s.cfg x = true := by
      simp only [badFT, Bool.or_eq_true, bne_iff_ne, Bool.not_eq_true', ← Bool.not_eq_true, valuesOk_iff]
      by_cases hl : x.length = s.cfg.t
      · refine .inr fun hall => ?_
        obtain ⟨w, hw, hp⟩ := h hl (fun w hw => (hall w hw).1)
        have := (hall w hw).2
        omega
      · exact .inl hl
    simp [firstFault, this]
  case fold w =>
    rw [exec_fold]
    refine command_faults hf ?_
    have : badFF s.cfg w = true := by
      by_contra hb
      simp only [badFF, Bool.not_eq_true, Bool.or_eq_false_iff, bne_eq_false_iff_eq, Bool.not_eq_false', valuesOk_iff, maskOk, Bool.and_eq_true, decide_eq_true_eq] at hb
      obtain ⟨⟨hl, hv⟩, hk1, hk2⟩ := hb
      have hd : w.drop (s.cfg.t + s.cfg.rate) = [foldMask s.cfg w] := by
        rw [foldMask, lane_eq _ _ (by omega), List.drop_eq_getElem_cons (by omega), List.drop_eq_nil_of_le (by omega)]
      have hsplit : w = w.take (s.cfg.t + s.cfg.rate) ++ [foldMask s.cfg w] := by
        rw [← hd, List.take_append_drop]
      obtain ⟨k, hk, hk'⟩ := h hl (fun a ha => by
        rw [hsplit] at ha
        simp at ha
        rcases ha with ha | rfl
        · exact (hv a ha).1
        · exact hk1) (fun a ha => (hv a ha).2)
      rw [hd] at hk
      simp at hk
      subst hk
      omega
    simp [firstFault, this]

/-! ### Effects -/

/-- While a fault is recorded every command but STATUS is refused (R125). -/
theorem exec_faulted {i : Instr} {s : State} (hf : s.fault = true) (hi : i ≠ .status) :
    exec i s = .next (refuse i.op.code s) := by
  cases i <;> first | exact absurd rfl hi | (simp [exec, execNop, execInit, execAbsorb, execSqueeze, execHash, execPerm, execFold, execCapiv, execPadding, command, hf, Instr.op])

/-- An effect leaves CFG, the receive channel, the reset line, FAULT and FCODE alone and sends one OK response. -/
theorem effect_frame {i : Instr} {s t : State} (h : Effect i s t) :
    t.cfg = s.cfg ∧ t.rx = s.rx ∧ t.rst = s.rst ∧ t.fault = s.fault ∧ t.fcode = s.fcode ∧
    ∃ ws, t.tx = s.tx ++ [⟨i.op.code, .ok, s.fcode, ws⟩] := by
  cases h with
  | nop | status | init | perm | fold | capiv | padding => exact ⟨rfl, rfl, rfl, rfl, rfl, _, rfl⟩
  | absorb _ v _ _ =>
    obtain ⟨l, b, hv⟩ := absorbStep_frame v s
    simp [hv, Instr.op]
  | squeeze _ s' u _ hu =>
    obtain ⟨l, b, rfl⟩ := squeezeLoop_frame _ _ hu
    exact ⟨rfl, rfl, rfl, rfl, rfl, _, rfl⟩
  | hash _ s' m u _ _ _ hu =>
    obtain ⟨l, b, rfl⟩ := squeezeLoop_frame _ _ hu
    obtain ⟨l', b', m', hm⟩ := absorbAll_frame m s
    simp [hm, Instr.op]

/-- An effect moves LC as the table of R104 says. -/
theorem effect_lc {i : Instr} {s t : State} (h : Effect i s t) : lifecycleTable i.op s.lc = .ok t.lc := by
  cases h with
  | nop | status => simp [Instr.op, lifecycleTable]
  | init => simp [Instr.op, lifecycleTable]
  | perm x _ _ _ h | fold w _ _ h | capiv _ h | padding _ h =>
    cases hl : s.lc <;> simp_all [Instr.op, lifecycleTable]
  | absorb _ v _ hl => rcases hl with hl | hl <;> simp [hl, Instr.op, lifecycleTable]
  | squeeze _ s' u hl hu => rcases hl with hl | hl <;> simp [hl, Instr.op, lifecycleTable]
  | hash _ s' m u _ hl _ hu => simp [hl, Instr.op, lifecycleTable]

end Sys2Proof.Machine
end

