-- ==== Sys2Proof/Laws/Invariant.lean ====
section
/-! SUPPORT. ABSORB_STEP and SQUEEZE_STEP keep what an instance's registers satisfy: T canonical lanes, RATE slots with
canonical values, and the buffer shape of the mode (R17, R19, R21). -/

namespace Sys2Proof.Machine

variable {c : Config} {b : RateBuffer} {s t : State} {i u v : Nat}

/-! ### Buffers -/

theorem bufferOk_unset : BufferOk c (unsetBuffer c) := by simp [BufferOk, unsetBuffer]

theorem bufferOk_fresh (hr : 1 ≤ c.rate) (hv : v < c.p) : BufferOk c (freshBuffer c v) := by
  refine ⟨by simp [freshBuffer]; omega, fun o ho w hw => ?_⟩
  simp only [freshBuffer, List.mem_cons, List.mem_replicate] at ho
  obtain rfl | ⟨-, rfl⟩ := ho
  · simp at hw; omega
  · simp at hw

theorem bufferOk_drained (hp : 1 ≤ c.p) {lanes : List Nat} (h : Canonical c lanes) : BufferOk c (drained c lanes) := by
  refine ⟨by simp [drained], fun o ho w hw => ?_⟩
  simp only [drained, List.mem_map] at ho
  obtain ⟨j, -, rfl⟩ := ho
  split at hw
  · simp at hw
  · simp at hw; subst hw; exact lane_lt hp h j

theorem bufferOk_set (h : BufferOk c b) {o : Option Nat} (ho : ∀ w ∈ o, w < c.p) : BufferOk c (b.set i o) := by
  refine ⟨by simp [h.1], fun o' ho' => ?_⟩
  obtain h' | rfl := List.mem_or_eq_of_mem_set ho'
  · exact h.2 o' h'
  · exact ho

/-- What SQUEEZE returns is a value of the buffer. -/
theorem lt_of_firstSet (h : BufferOk c b) (hf : firstSet b = some (i, u)) : u < c.p :=
  h.2 _ (List.mem_of_getElem? (firstSet_eq_some.1 hf).1) u rfl

theorem setPrefix_unset : SetPrefix c (unsetBuffer c) := ⟨0, by omega, by simp⟩

theorem setPrefix_fresh (hr : 1 ≤ c.rate) : SetPrefix c (freshBuffer c v) :=
  ⟨1, hr, fun i _ => by rw [slot_fresh]; split <;> simp <;> omega⟩

theorem setSuffix_drained {lanes : List Nat} (hr : 1 ≤ c.rate) : SetSuffix c (drained c lanes) :=
  ⟨1, hr, fun i hi => by rw [drained, slot_map_range, if_pos hi]; split <;> simp <;> omega⟩

/-- Filling the first unset slot of a prefix makes it one longer (R21, R78). -/
theorem setPrefix_fill (hl : b.length = c.rate) (h : SetPrefix c b) (hi : firstUnset b = some i) :
    SetPrefix c (b.set i (some v)) := by
  obtain ⟨k, hk, hs⟩ := h
  obtain ⟨h1, h2⟩ := firstUnset_eq_some.1 hi
  have hib : i < b.length := (List.getElem?_eq_some_iff.1 h1).1
  have hik : i = k := by
    apply Nat.le_antisymm
    · by_contra hlt
      refine h2 k (by omega) ?_
      rw [getElem?_of_slot (by omega)]
      have := (not_congr (hs k (by omega))).2 (by omega)
      simpa using this
    · by_contra hlt
      have := (hs i (by omega)).2 (by omega)
      simp [slot_of_getElem? h1] at this
  refine ⟨k + 1, by omega, fun j hj => ?_⟩
  rw [slot_set hib]
  split
  · simp; omega
  · rw [hs j hj]; omega

/-- Clearing the first set slot of a suffix makes it one shorter (R21, R82). -/
theorem setSuffix_take (hl : b.length = c.rate) (h : SetSuffix c b) (hi : firstSet b = some (i, u)) :
    SetSuffix c (b.set i none) := by
  obtain ⟨k, hk, hs⟩ := h
  obtain ⟨h1, h2⟩ := firstSet_eq_some.1 hi
  have hib : i < b.length := (List.getElem?_eq_some_iff.1 h1).1
  have hik : i = k := by
    apply Nat.le_antisymm
    · by_contra hlt
      have h3 := (hs k (by omega)).2 (Nat.le_refl _)
      rw [slot_of_getElem? (h2 k (by omega))] at h3
      simp at h3
    · exact (hs i (by omega)).1 (by rw [slot_of_getElem? h1]; rfl)
  refine ⟨k + 1, by omega, fun j hj => ?_⟩
  rw [slot_set hib]
  split
  · simp; omega
  · rw [hs j hj]; omega

/-! ### The registers of an instance -/

/-- What the sponge's registers satisfy while an instance exists, whatever its lifecycle. -/
abbrev SpongeOk (s : State) : Prop := 1 ≤ s.cfg.p ∧ 1 ≤ s.cfg.rate ∧ LanesOk s.cfg s.lanes ∧ BufferOk s.cfg s.buf ∧ BufferShape s

theorem InstanceOk.rate_pos (h : InstanceOk s) : 1 ≤ s.cfg.rate := (initPasses_iff.1 h.checked).1.1

theorem InstanceOk.width (h : InstanceOk s) : s.cfg.t = s.cfg.rate + 1 := (initPasses_iff.1 h.checked).1.2.1

theorem InstanceOk.spongeOk (h : InstanceOk s) (hp : 1 ≤ s.cfg.p) : SpongeOk s :=
  ⟨hp, h.rate_pos, h.lanes, h.buffer, h.shape⟩

/-- ABSORB_STEP of a canonical value keeps the registers in order. -/
theorem absorbStep_spongeOk (h : SpongeOk s) (hv : v < s.cfg.p) : SpongeOk (absorbStep v s) := by
  obtain ⟨hp, hr, hl, hb, hs⟩ := h
  obtain ⟨i, hm, hi, ha⟩ | ⟨hm, -, ha⟩ | ⟨-, ha⟩ := absorbStep_cases v s
  · rw [ha]
    refine ⟨hp, hr, hl, bufferOk_set hb (by simpa using hv), fun _ => setPrefix_fill hb.1 (hs.1 hm) hi, ?_⟩
    simp [hm]
  · rw [ha]
    exact ⟨hp, hr, duplexLanes_lanesOk hp hl, bufferOk_fresh hr hv, fun _ => setPrefix_fresh hr, by simp⟩
  · rw [ha]
    exact ⟨hp, hr, hl, bufferOk_fresh hr hv, fun _ => setPrefix_fresh hr, by simp⟩

/-- Absorbing a canonical message keeps the registers in order. -/
theorem absorbAll_spongeOk {m : List Nat} (h : SpongeOk s) (hm : Canonical s.cfg m) : SpongeOk (absorbAll m s) := by
  induction m generalizing s with
  | nil => exact h
  | cons v m ih =>
    exact ih (absorbStep_spongeOk h (hm v (by simp))) fun w hw => by simpa using hm w (by simp [hw])

/-- SQUEEZE_STEP keeps the registers in order and returns a canonical value. -/
theorem squeezeStep_spongeOk (h : SpongeOk s) (hu : squeezeStep s = some (u, t)) : SpongeOk t ∧ u < s.cfg.p := by
  obtain ⟨hp, hr, hl, hb, hs⟩ := h
  obtain ⟨u', t', he, h⟩ := squeezeStep_cases hr
  rw [he] at hu
  obtain ⟨rfl, rfl⟩ := Prod.mk.inj (Option.some.inj hu)
  obtain ⟨i, hm, hi, ht⟩ | ⟨b, -, hu', ht⟩ := h
  · rw [ht]
    refine ⟨⟨hp, hr, hl, bufferOk_set hb (by simp), ?_, fun _ => setSuffix_take hb.1 (hs.2 hm) hi⟩, lt_of_firstSet hb hi⟩
    simp [hm]
  · have hd := duplexLanes_lanesOk (b := b) hp hl
    rw [ht, hu']
    exact ⟨⟨hp, hr, hd, bufferOk_drained hp hd.2, by simp, fun _ => setSuffix_drained hr⟩, lane_lt hp hd.2 0⟩

/-- A fresh instance's registers are in order (R106). -/
theorem newInstance_instanceOk (hp : 1 ≤ s.cfg.p) (h : initPasses s.cfg) : InstanceOk (newInstance s) where
  checked := h
  lanes := initialLanes_lanesOk hp (initPasses_iff.1 h).1.2.1
  buffer := bufferOk_unset
  shape := ⟨fun _ => setPrefix_unset, by simp [newInstance]⟩
  ready _ := ⟨rfl, rfl, rfl⟩
  consumed := by simp [newInstance]

/-! ### Results -/

/-- The fold of FOLD's operands has canonical words, when its state operand is canonical (R102). -/
theorem fold_canonical (hp : 1 ≤ c.p) {x : List Nat} (h : Canonical c x) : Canonical c (fold c x b) := by
  intro y hy
  rw [fold_eq, List.mem_map] at hy
  obtain ⟨i, -, rfl⟩ := hy
  unfold foldLane
  split
  · split
    · exact addF_lt hp _ _
    · exact lane_lt hp h i
  · exact lane_lt hp h i

end Sys2Proof.Machine
end

