-- ==== Sys2Proof/Laws/Runs.lean ====
section
/-! SUPPORT. Commands one after another: a run of ABSORBs against ABSORB_STEP's loop, a buffer filled word by word, and a message
cut into blocks of RATE words (R78, R79, R107, R108). -/

namespace Sys2Proof.Machine

variable {c : Config} {s t : State} {v u i : Nat} {m b : List Nat}

/-! ### Commands that run -/

/-- An outcome has a next state exactly when it is one. -/
theorem nextOf_eq_some {o : Host.Outcome State Fault Refusal} : nextOf o = some t ↔ o = .next t := by
  cases o <;> simp [nextOf]


theorem exec_absorb_runs (hf : s.fault = false) (hl : Usable s) (hv : v < s.cfg.p) (hw : v < 2 ^ s.cfg.fw) :
    exec (.absorb v) s = .next (respondOk .absorb [] { absorbStep v s with lc := .duplex }) := by
  obtain ⟨h1, h2⟩ := usable_iff.1 hl
  rw [exec_absorb, command_runs hf (by simp [firstFault, badF1, canonical, hv, hw, h1, h2])]

theorem exec_squeeze_runs (hf : s.fault = false) (hl : Usable s) (h : squeezeStep s = some (u, t)) :
    exec .squeeze s = .next (respondOk .squeeze [u] { t with lc := .duplex }) := by
  obtain ⟨h1, h2⟩ := usable_iff.1 hl
  rw [exec_squeeze, command_runs hf (by simp [firstFault, h1, h2]), squeezeAndRespond_some h]

theorem exec_hash_runs (hf : s.fault = false) (hl : s.lc = .ready) (hv : valuesOk s.cfg m = true)
    (hm : m.length = s.cfg.l) (h : squeezeStep (absorbAll m s) = some (u, t)) :
    exec (.hash m) s = .next (respondOk .hash [u] { t with lc := .consumed }) := by
  rw [exec_hash, command_runs hf (by simp [firstFault, badFV, hv, notInit, isConsumed, afterDuplex, hl, hm]),
    squeezeAndRespond_some h]

theorem exec_init_runs (hf : s.fault = false) (h : initPasses s.cfg) :
    exec .init s = .next (respondOk .init [] (newInstance s)) := by rw [exec_init, command_runs hf h]

theorem execAll_next {i : Instr} {is : List Instr} (h : exec i s = .next t) : execAll (i :: is) s = execAll is t := by
  simp [execAll, h]

theorem execAll_append {is js : List Instr} (h : execAll is s = .next t) : execAll (is ++ js) s = execAll js t := by
  induction is generalizing s with
  | nil => cases h; rfl
  | cons i is ih =>
    rw [List.cons_append]
    cases he : exec i s with
    | next s' =>
      rw [execAll_next he] at h ⊢
      exact ih h
    | fault r => simp [execAll, he] at h
    | refused r => simp [execAll, he] at h

/-- LC and the responses sent do not matter to ABSORB_STEP. -/
theorem absorbStep_lc_tx (lc : Lifecycle) (tx : List Response) :
    absorbStep v { s with lc := lc, tx := tx } = { absorbStep v s with lc := lc, tx := tx } := by
  obtain hm | hm := mode_cases s
  · cases hi : firstUnset s.buf with
    | none => rw [absorbStep_overflow hm hi, absorbStep_overflow (s := { s with lc := lc, tx := tx }) hm hi]
    | some i => rw [absorbStep_fill hm hi, absorbStep_fill (s := { s with lc := lc, tx := tx }) hm hi]
  · rw [absorbStep_switch hm, absorbStep_switch (s := { s with lc := lc, tx := tx }) hm]

theorem absorbAll_lc_tx (lc : Lifecycle) (tx : List Response) :
    absorbAll m { s with lc := lc, tx := tx } = { absorbAll m s with lc := lc, tx := tx } := by
  induction m generalizing s with
  | nil => rfl
  | cons v m ih =>
    change absorbAll m (absorbStep v { s with lc := lc, tx := tx }) = _
    rw [absorbStep_lc_tx, ih]
    rfl

/-- A run of ABSORBs is ABSORB_STEP word by word, with one OK response each (R85, R109). -/
theorem execAll_absorbs (hf : s.fault = false) (hl : Usable s) (hm : ∀ w ∈ m, w < s.cfg.p ∧ w < 2 ^ s.cfg.fw) :
    execAll (m.map .absorb) s = .next { absorbAll m s with
      lc := if m = [] then s.lc else .duplex,
      tx := s.tx ++ List.replicate m.length ⟨0x10, .ok, s.fcode, []⟩ } := by
  induction m generalizing s with
  | nil => simp [execAll, absorbAll]
  | cons v m ih =>
    obtain ⟨l, b, hv⟩ := absorbStep_frame v s
    rw [List.map_cons, execAll_next (exec_absorb_runs hf hl (hm v (by simp)).1 (hm v (by simp)).2)]
    have h := ih (s := respondOk .absorb [] { absorbStep v s with lc := .duplex }) (by simp [hv, hf])
      (.inr (by simp))
      fun w hw => by simpa using hm w (by simp [hw])
    rw [h]
    have h2 : respondOk .absorb [] { absorbStep v s with lc := .duplex } =
        { absorbStep v s with lc := .duplex, tx := s.tx ++ [⟨0x10, .ok, s.fcode, []⟩] } := by rw [hv]; rfl
    rw [h2, absorbAll_lc_tx]
    have h3 : absorbAll (v :: m) s = absorbAll m (absorbStep v s) := rfl
    rw [h3]
    simp [hv, List.replicate_succ]

/-! ### Filling a buffer -/

/-- A buffer whose first slots hold the words of b. -/
def packed (c : Config) (b : List Nat) : RateBuffer := b.map some ++ List.replicate (c.rate - b.length) none

theorem packed_nil : packed c [] = unsetBuffer c := by simp [packed, unsetBuffer]

theorem packed_one : packed c [v] = freshBuffer c v := by simp [packed, freshBuffer]

theorem slot_packed : slot (packed c b) i = b[i]? := by
  rw [← slot_map_some]
  simp only [slot, packed, List.getD_eq_getElem?_getD, List.getElem?_append, List.length_map]
  split
  · rfl
  · next h =>
    rw [List.getElem?_eq_none (l := b.map some) (by simpa using h), List.getElem?_replicate]
    split <;> rfl

theorem firstUnset_packed (h : b.length < c.rate) : firstUnset (packed c b) = some b.length := by
  rw [firstUnset_eq_some]
  refine ⟨by
    rw [packed, List.getElem?_append_right (by simp)]
    rw [List.getElem?_replicate]; simp; omega, fun j hj => ?_⟩
  simp [packed, List.getElem?_append_left, hj]

theorem firstUnset_packed_full (h : b.length = c.rate) : firstUnset (packed c b) = none := by
  rw [firstUnset_eq_none]; simp [packed, h]

theorem packed_set (h : b.length < c.rate) : (packed c b).set b.length (some v) = packed c (b ++ [v]) := by
  have : c.rate - b.length = c.rate - (b.length + 1) + 1 := by omega
  rw [packed, packed, List.set_append_right _ _ (by simp), List.length_map, Nat.sub_self, this, List.replicate_succ]
  simp

/-- Words that fit the buffer are stored one after another, and STATE is unchanged (R78). -/
theorem absorbAll_fill (hm : s.mode = .absorbing) (hb : s.buf = packed s.cfg b) (h : b.length + m.length ≤ s.cfg.rate) :
    absorbAll m s = { s with buf := packed s.cfg (b ++ m) } := by
  induction m generalizing s b with
  | nil => simp [absorbAll, ← hb]
  | cons v m ih =>
    simp only [List.length_cons] at h
    have hu : firstUnset s.buf = some b.length := by rw [hb]; exact firstUnset_packed (by omega)
    change absorbAll m (absorbStep v s) = _
    rw [absorbStep_fill hm hu, ih (b := b ++ [v]) (by exact hm) (by rw [hb]; exact packed_set (by omega)) (by simp; omega)]
    simp

/-- The word after a full buffer runs a duplex round and starts the next block (R79). -/
theorem absorbAll_full (hm : s.mode = .absorbing) (hb : s.buf = packed s.cfg b) (h : b.length = s.cfg.rate)
    (hr : 1 ≤ s.cfg.rate) : absorbAll (v :: m) s =
      absorbAll (v :: m) { s with lanes := duplexLanes s.cfg s.lanes s.buf, buf := unsetBuffer s.cfg } := by
  have h1 : absorbStep v s = { s with lanes := duplexLanes s.cfg s.lanes s.buf, buf := freshBuffer s.cfg v } := by
    rw [absorbStep_overflow hm (by rw [hb]; exact firstUnset_packed_full h), ← hm]
  have h2 : absorbStep v { s with lanes := duplexLanes s.cfg s.lanes s.buf, buf := unsetBuffer s.cfg } =
      { s with lanes := duplexLanes s.cfg s.lanes s.buf, buf := freshBuffer s.cfg v } := by
    rw [absorbStep_fill (s := { s with lanes := duplexLanes s.cfg s.lanes s.buf, buf := unsetBuffer s.cfg }) (i := 0) hm
      (by rw [← packed_nil]; exact firstUnset_packed hr)]
    have h3 := packed_set (c := s.cfg) (b := []) (v := v) hr
    rw [packed_nil] at h3
    rw [← packed_one, ← List.nil_append [v], ← h3]
    rfl
  change absorbAll m (absorbStep v s) = absorbAll m (absorbStep v _)
  rw [h1, h2]

/-! ### Blocks (R107, R108) -/

theorem blocks_short (h : m.length ≤ c.rate) (hr : 1 ≤ c.rate) : blocks c m = [m] := by
  have : blockCount c m = 1 := by
    unfold blockCount
    have : (m.length + c.rate - 1) / c.rate ≤ 1 := by
      rw [← Nat.lt_succ_iff, Nat.div_lt_iff_lt_mul (by omega)]; omega
    omega
  simp [blocks, this, List.take_of_length_le h]

theorem blockCount_long (h : c.rate < m.length) (hr : 1 ≤ c.rate) : blockCount c m = blockCount c (m.drop c.rate) + 1 := by
  unfold blockCount
  have h1 : (m.length + c.rate - 1) / c.rate = ((m.drop c.rate).length + c.rate - 1) / c.rate + 1 := by
    rw [List.length_drop, ← Nat.add_div_right _ (by omega)]; congr 1; omega
  have h2 : 1 ≤ ((m.drop c.rate).length + c.rate - 1) / c.rate := by
    rw [Nat.one_le_div_iff (by omega), List.length_drop]; omega
  omega

theorem blocks_long (h : c.rate < m.length) (hr : 1 ≤ c.rate) :
    blocks c m = m.take c.rate :: blocks c (m.drop c.rate) := by
  rw [blocks, blocks, blockCount_long h hr, List.range_succ_eq_map]
  simp only [List.map_cons, Nat.zero_mul, List.drop_zero, List.map_map, List.cons.injEq, true_and]
  refine List.map_congr_left fun k _ => ?_
  simp [List.drop_drop, Nat.succ_mul, Nat.add_comm]

theorem fold_packed {lanes : List Nat} : fold c lanes (packed c b) = fold c lanes (b.map some) :=
  fold_congr_slots fun i _ => by rw [slot_packed, slot_map_some]

/-- Absorbing a message from an empty Absorbing buffer, and then running the last duplex round, folds in and permutes its blocks in
turn (R77 to R79). -/
theorem duplex_absorbAll (hr : 1 ≤ s.cfg.rate) (hm : s.mode = .absorbing) (hb : s.buf = unsetBuffer s.cfg) :
    (absorbAll m s).mode = .absorbing ∧
    duplexLanes s.cfg (absorbAll m s).lanes (absorbAll m s).buf =
      (blocks s.cfg m).foldl (fun lanes b => permute s.cfg (fold s.cfg lanes (b.map some))) s.lanes := by
  induction hn : m.length using Nat.strong_induction_on generalizing m s with
  | _ n ih =>
    by_cases hs : m.length ≤ s.cfg.rate
    · rw [absorbAll_fill (b := []) hm (by rw [packed_nil]; exact hb) (by simpa using hs), blocks_short hs hr]
      simp [hm, duplexLanes, fold_packed]
    · have hs : s.cfg.rate < m.length := by omega
      have h1 : absorbAll (m.take s.cfg.rate) s = { s with buf := packed s.cfg (m.take s.cfg.rate) } :=
        absorbAll_fill (b := []) hm (by rw [packed_nil]; exact hb) (by simp)
      obtain ⟨v, m', hd⟩ : ∃ v m', m.drop s.cfg.rate = v :: m' := by
        cases hd : m.drop s.cfg.rate with
        | nil => simp at hd; omega
        | cons v m' => exact ⟨v, m', rfl⟩
      rw [blocks_long hs hr]
      conv => enter [1, 1, 1]; rw [← List.take_append_drop s.cfg.rate m]
      conv => enter [2, 1]; rw [← List.take_append_drop s.cfg.rate m]
      have h2 := absorbAll_full (s := { s with buf := packed s.cfg (m.take s.cfg.rate) }) (v := v) (m := m')
        (b := m.take s.cfg.rate) hm rfl (by simp; omega) hr
      rw [absorbAll_append, h1, hd, h2]
      have hlen : (v :: m').length < n := by rw [← hd, List.length_drop]; omega
      have := @ih _ hlen
        ({ s with lanes := duplexLanes s.cfg s.lanes (packed s.cfg (m.take s.cfg.rate)), buf := unsetBuffer s.cfg })
        (v :: m') hr hm rfl rfl
      simpa [duplexLanes, fold_packed] using this

/-- How full the buffer is after a message absorbed from an empty Absorbing buffer (R108). -/
theorem absorbAll_buf (hr : 1 ≤ s.cfg.rate) (hm : s.mode = .absorbing) (hb : s.buf = unsetBuffer s.cfg) :
    (absorbAll m s).mode = .absorbing ∧
    ∃ b, (absorbAll m s).buf = packed s.cfg b ∧ b.length = if m = [] then 0 else (m.length - 1) % s.cfg.rate + 1 := by
  induction m using List.reverseRecOn with
  | nil => exact ⟨hm, [], by rw [packed_nil]; exact hb, rfl⟩
  | append_singleton m v ih =>
    obtain ⟨h1, b, h2, h3⟩ := ih
    have hc : (absorbAll m s).cfg = s.cfg := by
      obtain ⟨l, b, md, h⟩ := absorbAll_frame m s
      rw [h]
    rw [absorbAll_append]
    change (absorbStep v (absorbAll m s)).mode = _ ∧ ∃ b, (absorbStep v (absorbAll m s)).buf = _ ∧ _
    have hlen : b.length ≤ s.cfg.rate := by
      rw [h3]; split
      · omega
      · exact Nat.mod_lt _ hr
    by_cases hlt : b.length < s.cfg.rate
    · have hu : firstUnset (absorbAll m s).buf = some b.length := by rw [h2]; exact firstUnset_packed hlt
      rw [absorbStep_fill h1 hu]
      refine ⟨h1, b ++ [v], by rw [← packed_set hlt, ← h2], ?_⟩
      by_cases hn : m = []
      · subst hn; simp at h3; simp [h3]
      · rw [if_neg hn] at h3
        have hp : 1 ≤ m.length := List.length_pos_iff.2 hn
        have : m.length = m.length - 1 + 1 := by omega
        simp only [List.length_append, List.length_singleton, h3, Nat.add_sub_cancel, List.append_eq_nil_iff, List.cons_ne_self,
          and_false, if_false]
        rw [this, Nat.add_mod (m.length - 1), Nat.add_sub_cancel]
        by_cases h1r : s.cfg.rate = 1
        · rw [h1r] at h3 hlt; omega
        · rw [Nat.mod_eq_of_lt (show 1 < s.cfg.rate by omega), Nat.mod_eq_of_lt (show (m.length - 1) % s.cfg.rate + 1 < s.cfg.rate by omega)]
    · have he : b.length = s.cfg.rate := by omega
      rw [absorbStep_overflow h1 (by rw [h2]; exact firstUnset_packed_full he)]
      refine ⟨rfl, [v], by rw [packed_one, hc], ?_⟩
      by_cases hn : m = []
      · rw [if_pos hn] at h3; omega
      · rw [if_neg hn] at h3
        have hp : 1 ≤ m.length := List.length_pos_iff.2 hn
        have hz : m.length % s.cfg.rate = 0 := by
          have h4 : m.length = m.length - 1 + 1 := by omega
          have h5 := Nat.div_add_mod (m.length - 1) s.cfg.rate
          rw [h4, ← h5, Nat.add_assoc, ← h3, he]
          simp
        simp [hz]

end Sys2Proof.Machine
end

