-- ==== Sys2Proof/Machine/Assembler.lean ====
section
/-! DEFINITION. The assembler of R61 and R62: one line of text to the commands it stands for. It is no part of the core,
which sees frames only; the frame of each command is `Sys2Proof.encode`. Text is a list of characters. -/

namespace Sys2Proof.Asm

/-- A line without its comment: `;;` starts one (R61). -/
def stripComment : List Char → List Char
  | [] => []
  | ';' :: ';' :: _ => []
  | c :: cs => c :: stripComment cs

def isSpace (c : Char) : Bool := c = ' ' || c = '\t' || c = '\n' || c = '\r'

/-- Text without the white space at both ends. -/
def trim (cs : List Char) : List Char := ((cs.dropWhile isSpace).reverse.dropWhile isSpace).reverse

/-- The pieces of a text between separators. -/
def splitOn (sep : Char) : List Char → List (List Char)
  | [] => [[]]
  | c :: cs =>
    if c = sep then [] :: splitOn sep cs
    else
      match splitOn sep cs with
      | [] => [[c]]
      | piece :: rest => (c :: piece) :: rest

/-- The value of a digit in a base up to 16. -/
def digit (base : Nat) (c : Char) : Option Nat :=
  let n := c.toNat
  let d := if 48 ≤ n && n ≤ 57 then n - 48 else if 97 ≤ n && n ≤ 102 then n - 87 else if 65 ≤ n && n ≤ 70 then n - 55 else 16
  if d < base then some d else none

/-- Digits read after a value already read. -/
def digits (base : Nat) : Nat → List Char → Option Nat
  | acc, [] => some acc
  | acc, c :: cs => (digit base c).bind fun d => digits base (acc * base + d) cs

/-- A decimal or `0x` hexadecimal literal (R61). -/
def literal : List Char → Option Nat
  | [] => none
  | ['0', 'x'] => none
  | '0' :: 'x' :: cs => digits 16 0 cs
  | cs => digits 10 0 cs

/-- Every item of a list read, or none. -/
def readAll {α β : Type} (f : α → Option β) : List α → Option (List β)
  | [] => some []
  | a :: as => (f a).bind fun b => (readAll f as).map (b :: ·)

/-- The operands of a line: groups between semicolons, items between commas; no text means no operand (R61). -/
def operands (cs : List Char) : Option (List (List Nat)) :=
  if trim cs = [] then some []
  else readAll (fun g => readAll (fun w => literal (trim w)) (splitOn ',' g)) (splitOn ';' cs)

/-- The expansion of a pseudo-instruction (R62). -/
def expand : Pseudo → List Instr
  | .absorbs vs => vs.map .absorb
  | .squeezes n => List.replicate n .squeeze

/-- A mnemonic and its operand groups as commands, or none (R61, R62). FOLD has three groups. A line without operands is HASH with no
word (R61). The rules leave open, and the model chooses (DESIGN CHOICE, notes/assumptions/18.md): HASH, PERM and FOLD take any
number of operands, not only L, T and T + RATE + 1, and FOLD's first two groups any split, not only T and RATE words, so that a
line stands for the frame with the operands as written and the core judges it; a word of any value is taken, canonical or not; and a
PERM or ABSORBS line without operands, or a FOLD line with an empty group, is no line of the syntax. SQUEEZES 0 is no command at all (R62). -/
def line (name : String) (groups : List (List Nat)) : Option (List Instr) :=
  match groups with
  | [] =>
    if name = "NOP" then some [.nop]
    else if name = "STATUS" then some [.status]
    else if name = "INIT" then some [.init]
    else if name = "SQUEEZE" then some [.squeeze]
    else if name = "CAPIV" then some [.capiv]
    else if name = "PADDING" then some [.padding]
    else if name = "HASH" then some [.hash []]
    else none
  | [ws] =>
    if name = "HASH" then some [.hash ws]
    else if name = "PERM" then some [.perm ws]
    else if name = "ABSORBS" then some (expand (.absorbs ws))
    else
      match ws with
      | [v] =>
        if name = "ABSORB" then some [.absorb v]
        else if name = "SQUEEZES" then some (expand (.squeezes v))
        else none
      | _ => none
  | [s, b, k] => if name = "FOLD" && k.length = 1 then some [.fold (s ++ b ++ k)] else none
  | _ => none

/-- One line of text as the commands it stands for: none for text that is no line of the syntax, no command for an empty
line (R61, R62). -/
def assemble (text : List Char) : Option (List Instr) :=
  let cs := trim (stripComment text)
  if cs = [] then some []
  else
    let name := cs.takeWhile fun c => !isSpace c
    (operands (cs.drop name.length)).bind (line (String.ofList name))

end Sys2Proof.Asm
end

