-- ==== Sys2Proof/Tests/Slice0.lean ====
section
/-! SUPPORT. Tests. Their expected results are the spec's own vectors (95_test_vectors.md, cited by id) or are worked out by hand
from the rule cited. The second half shows, for each obligation with hypotheses, values that meet them all. -/

namespace Sys2Proof.Tests

open Sys2Proof Sys2Proof.Machine

/-! ### States the tests start from (TOY-A unless said; 95_test_vectors.md part 3.5 and part 4) -/

/-- What INIT leaves (R106 example). -/
def ready : State := { State.reset with lanes := [0, 0, 25], lc := .ready }

/-- After `ABSORB 1` (Q1). -/
def partly : State := { ready with buf := [some 1, none], lc := .duplex }

/-- After `ABSORB 1; ABSORB 2` (Q2). -/
def full : State := { ready with buf := [some 1, some 2], lc := .duplex }

/-- After `ABSORB 5; SQUEEZE` (Q5). -/
def unread : State := { ready with lanes := [76, 81, 6], mode := .squeezing, buf := [none, some 81], lc := .duplex }

/-- After two SQUEEZEs (Q4): the buffer is empty. -/
def empty : State := { ready with lanes := [65, 55, 46], mode := .squeezing, buf := [none, none], lc := .duplex }

/-- After `HASH 6, 42` (P1). -/
def consumed : State := { ready with lanes := [32, 32, 56], mode := .squeezing, buf := [none, some 32], lc := .consumed }

/-- After a fault with NOT_INIT (P4 step 1). -/
def faulted : State := { State.reset with fault := true, fcode := .notInit }

/-- What INIT leaves under TOY-B (P3). -/
def readyB : State := { State.resetWith Config.toyB with lanes := [0, 0, 86], lc := .ready }

/-- TOY-A with another L. -/
def withL (n : Nat) : Config := { Config.toyA with l := n }

/-- STATE, MODE, BUF and LC, and the words of the last response. -/
structure Seen where
  lanes : List Nat
  mode : Mode
  buf : RateBuffer
  lc : Lifecycle
  words : List Nat
  deriving DecidableEq, Repr

/-- What is seen of a state; no words when it has sent nothing. -/
def seen (s : State) : Seen := ⟨s.lanes, s.mode, s.buf, s.lc, (s.tx.getLast?.map Response.words).getD []⟩

/-- What is seen after a command. -/
def after (i : Instr) (s : State) : Option Seen := (nextOf (exec i s)).map seen

/-- The registers of s, with these words sent last. -/
def unchanged (s : State) (ws : List Nat) : Option Seen := some { seen s with words := ws }

/-- The last response header after a step on these bytes. -/
def headerAfter (bs : List Byte) (s : State) : Option Header :=
  (nextOf (step (hostSend bs s))).bind fun t => t.tx.getLast?.map Response.header

/-! ### Well-formedness: each check refuses an ill-formed term -/

theorem test_wf_accepts : (Instr.fold [10, 20, 30, 5, 7, 3]).wellFormed Config.toyA = true := by decide
theorem test_wf_perm_count : (Instr.perm [1, 2]).countOk Config.toyA = false := by decide
theorem test_wf_fold_count : (Instr.fold [1, 2, 3, 4, 5]).countOk Config.toyA = false := by decide
theorem test_wf_header_count : (Instr.hash (List.replicate 65536 0)).countFits = false := by
  simp only [Instr.countFits, Instr.words, List.length_replicate]
  decide
theorem test_wf_word_width : (Instr.absorb 128).wordsFit Config.toyA = false := by decide
theorem test_wf_value_canonical : (Instr.absorb 97).valuesCanonical Config.toyA = false := by decide
theorem test_wf_masked_off_value : (Instr.fold [1, 2, 3, 97, 0, 0]).valuesCanonical Config.toyA = false := by decide
theorem test_wf_fold_mask : (Instr.fold [10, 20, 30, 5, 7, 4]).maskOk Config.toyA = false := by decide
theorem test_wf_fold_refused : (Instr.fold [10, 20, 30, 5, 7, 4]).wellFormed Config.toyA = false := by decide

/-! ### Decoding: frames written out from R49 and R53, least significant byte first (R39, R40) -/

theorem test_decode_nop : receive Config.toyA [0x00, 0x00, 0x00, 0x00] = .command .nop [] := by decide
theorem test_decode_status : receive Config.toyA [0x01, 0x00, 0x00, 0x00] = .command .status [] := by decide
theorem test_decode_init : receive Config.toyA [0x02, 0x00, 0x00, 0x00, 0xFF] = .command .init [0xFF] := by decide
theorem test_decode_absorb : receive Config.toyA [0x10, 0x00, 0x01, 0x00, 0x60] = .command (.absorb 96) [] := by decide
theorem test_decode_squeeze : receive Config.toyA [0x11, 0x00, 0x00, 0x00] = .command .squeeze [] := by decide
theorem test_decode_hash : receive Config.toyA [0x20, 0x00, 0x02, 0x00, 0x06, 0x2A] = .command (.hash [6, 42]) [] := by decide
theorem test_decode_perm :
    receive Config.toyA [0x30, 0x00, 0x03, 0x00, 0x06, 0x2A, 0x19] = .command (.perm [6, 42, 25]) [] := by decide
theorem test_decode_fold :
    receive Config.toyA [0x31, 0x00, 0x06, 0x00, 10, 20, 30, 5, 7, 1] = .command (.fold [10, 20, 30, 5, 7, 1]) [] := by decide
theorem test_decode_capiv : receive Config.toyA [0x32, 0x00, 0x00, 0x00] = .command .capiv [] := by decide
theorem test_decode_padding : receive Config.toyA [0x33, 0x00, 0x00, 0x00] = .command .padding [] := by decide

/-- R39, R40: big-endian headers and a two-byte word. -/
theorem test_decode_big_endian :
    receive { Config.toyA with fw := 9, byteOrder := .be } [0x00, 0x01, 0x00, 0x10, 0x01, 0x02] =
      .command (.absorb 258) [] := by decide
/-- E7: 0x12 is reserved; its N words are read whole (R54). -/
theorem test_decode_reserved :
    receive Config.toyA [0x12, 0x00, 0x01, 0x00, 0x09, 0x01] = .rejected 0x12 .reservedOpcode [0x01] := by decide
/-- E8b: RSV = 1. -/
theorem test_decode_rsv : receive Config.toyA [0x11, 0x01, 0x00, 0x00] = .rejected 0x11 .reservedBits [] := by decide
/-- R50: NOP with one operand word. -/
theorem test_decode_count : receive Config.toyA [0x00, 0x00, 0x01, 0x00, 0x00] = .rejected 0x00 .wrongCount [] := by decide
/-- R41: the operand word has not arrived. -/
theorem test_decode_waiting : receive Config.toyA [0x10, 0x00, 0x01, 0x00] = .waiting := by decide
/-- EN2. -/
theorem test_encode_absorb : encode Config.toyA (.absorb 1) = [0x10, 0x00, 0x01, 0x00, 0x01] := by decide

/-! ### The datapath and the domain -/

/-- A1 (vector). -/
theorem test_arc_wraps : arc Config.toyA [96, 96, 96] 0 = [0, 1, 2] := by decide
/-- SB4, SB5. -/
theorem test_sbox : sbox Config.toyA 3 = 49 ∧ sbox Config.toyA 96 = 96 := by decide
/-- M2: MDS[i][j] is row i, column j. -/
theorem test_mds_column : mdsMix Config.toyA [1, 0, 0] = [2, 1, 3] := by decide
/-- M5. -/
theorem test_mds : mdsMix Config.toyA [1, 32, 49] = [50, 18, 36] := by decide
/-- R-F1, R-P1. -/
theorem test_rounds :
    fullRound Config.toyA [0, 0, 0] 0 = [50, 18, 36] ∧ partialRound Config.toyA [0, 0, 0] 1 = [32, 82, 82] := by decide
/-- R-K2. -/
theorem test_kinds : (List.range 6).map (isPartialRound Config.toyB) = [false, false, true, true, false, false] := by decide
/-- PM1. -/
theorem test_permute_toyA : permute Config.toyA [6, 42, 25] = [32, 32, 56] := by decide
/-- PM4. -/
theorem test_permute_toyB : permute Config.toyB [0, 0, 86] = [94, 1, 91] := by decide
/-- D-C2 to D-C5. -/
theorem test_capIv : [1, 2, 3, 65535].map (fun n => capIv (withL n)) = [61, 25, 86, 71] := by decide
/-- D-F4: wraps, capacity lane kept. -/
theorem test_fold_wraps : fold Config.toyA [10, 20, 30] [some 90, some 80] = [3, 3, 30] := by decide
/-- R65, D26: an S-box given by its table. -/
theorem test_sbox_table : sbox { Config.toyA with p := 3, sbox := .table [2, 0, 1] } 1 = 0 := by decide

/-! ### Commands: registers and result words after one command -/

theorem test_nop : after .nop State.reset = unchanged State.reset [] := by decide
/-- P1 step 3: STATUS 0x0001000B. -/
theorem test_status_consumed : after .status consumed = unchanged consumed [0x0001000B] := by decide
/-- P4 step 2: STATUS 0x00000510 in a faulted core. -/
theorem test_status_faulted : after .status faulted = unchanged faulted [0x00000510] := by decide
/-- R106. -/
theorem test_init : after .init consumed = some ⟨[0, 0, 25], .absorbing, [none, none], .ready, []⟩ := by decide
/-- Q3: the overflow round. -/
theorem test_absorb_overflow :
    after (.absorb 3) full = some ⟨[27, 81, 14], .absorbing, [some 3, none], .duplex, []⟩ := by decide
/-- Q6: ABSORB 7 drops the unread 81. -/
theorem test_absorb_switch :
    after (.absorb 7) unread = some ⟨[76, 81, 6], .absorbing, [some 7, none], .duplex, []⟩ := by decide
/-- Q4, first SQUEEZE. -/
theorem test_squeeze_run :
    after .squeeze ready = some ⟨[65, 55, 46], .squeezing, [none, some 55], .duplex, [65]⟩ := by decide
/-- Q4, third SQUEEZE. -/
theorem test_squeeze_refill :
    after .squeeze empty = some ⟨[27, 79, 18], .squeezing, [none, some 79], .duplex, [27]⟩ := by decide
/-- H1. -/
theorem test_hash :
    after (.hash [6, 42]) ready = some ⟨[32, 32, 56], .squeezing, [none, some 32], .consumed, [32]⟩ := by decide
set_option maxRecDepth 4096 in
/-- H4: the overflow path inside HASH. -/
theorem test_hash_overflow :
    after (.hash [1, 2, 3]) readyB = some ⟨[65, 23, 46], .squeezing, [none, some 23], .consumed, [65]⟩ := by decide
/-- R75 example: PERM leaves the sponge alone. -/
theorem test_perm : after (.perm [6, 42, 25]) ready = unchanged ready [32, 32, 56] := by decide
/-- D-F6. -/
theorem test_fold : after (.fold [10, 20, 30, 5, 7, 1]) ready = unchanged ready [15, 20, 30] := by decide
/-- R100 example. -/
theorem test_capiv : after .capiv consumed = unchanged consumed [25] := by decide
/-- D-P2. -/
theorem test_padding :
    (after .padding { ready with cfg := withL 1 }).map Seen.words = some [0, 0, 2] := by decide

/-! ### Faults and responses, one step from bytes (part 3.8) -/

/-- E1: RC_LEN. -/
theorem test_fault_rcLen :
    headerAfter (encode Config.toyA .init) (State.resetWith { Config.toyA with rc := [[1, 2, 3]] }) = some 0x00001102 := by decide
/-- E2: RF_ODD comes before RC_LEN. -/
theorem test_fault_rfOdd :
    headerAfter (encode Config.toyA .init) (State.resetWith { Config.toyA with rf := 1, rc := [] }) = some 0x00002102 := by decide
/-- E3: MSG_LEN. -/
theorem test_fault_msgLen : headerAfter (encode Config.toyA (.hash [6])) ready = some 0x00003120 := by decide
/-- E4: L_UNSUPPORTED. -/
theorem test_fault_lUnsupported :
    headerAfter (encode Config.toyA .init) (State.resetWith (withL 70000)) = some 0x00004102 := by decide
/-- E5: NOT_INIT. -/
theorem test_fault_notInit : headerAfter (encode Config.toyA (.absorb 1)) State.reset = some 0x00005110 := by decide
/-- E6: CONSUMED; and before MSG_LEN (R123). -/
theorem test_fault_consumed :
    headerAfter (encode Config.toyA (.absorb 1)) consumed = some 0x00006110 ∧
      headerAfter (encode Config.toyA (.hash [6])) consumed = some 0x00006120 := by decide
/-- E7: ILLEGAL_CMD. -/
theorem test_fault_illegal : headerAfter [0x12, 0, 0, 0] ready = some 0x00007112 := by decide
/-- E8, E8b, E8c, D-F7; and BAD_OPERAND before MSG_LEN (R123). -/
theorem test_fault_badOperand :
    headerAfter (encode Config.toyA (.absorb 97)) ready = some 0x00008110 ∧
      headerAfter [0x11, 1, 0, 0] ready = some 0x00008111 ∧
      headerAfter (encode Config.toyA (.perm [1, 2])) ready = some 0x00008130 ∧
      headerAfter (encode Config.toyA (.fold [10, 20, 30, 5, 7, 4])) ready = some 0x00008131 ∧
      headerAfter (encode Config.toyA (.hash [97])) ready = some 0x00008120 := by decide
/-- E9: HASH_AFTER_DUPLEX. -/
theorem test_fault_hashAfterDuplex : headerAfter (encode Config.toyA (.hash [6, 42])) partly = some 0x00009120 := by decide
/-- E10: SHAPE. -/
theorem test_fault_shape :
    headerAfter (encode Config.toyA .init) (State.resetWith { Config.toyA with t := 4 }) = some 0x0000A102 := by decide
/-- E11, EN7: INIT is refused; STATUS is answered (P4 steps 2 and 3). -/
theorem test_faulted_core :
    headerAfter (encode Config.toyA .init) faulted = some 0x00005202 ∧
      headerAfter (encode Config.toyA .status) faulted = some 0x00015001 := by decide
/-- R39: a bit above FW - 1 in an operand word. -/
theorem test_fault_paddingBit : headerAfter [0x10, 0, 1, 0, 0x80] ready = some 0x00008110 := by decide
/-- D-F6 on the wire: 0x00030031, 15, 20, 30. -/
theorem test_response_bytes :
    Response.bytes Config.toyA ⟨0x31, .ok, .none, [15, 20, 30]⟩ = [0x31, 0x00, 0x03, 0x00, 15, 20, 30] := by decide
/-- P1 step 5 on the wire: 0x00016001, 0x0001061B. -/
theorem test_status_bytes :
    Response.bytes Config.toyA ⟨0x01, .ok, .consumed, [0x0001061B]⟩ = [0x01, 0x60, 0x01, 0x00, 0x1B, 0x06, 0x01, 0x00] := by decide

/-! ### Reset, fetching and the configuration -/

/-- R32. -/
theorem test_reset : State.reset.lc = .uninit ∧ State.reset.fault = false ∧ State.reset.fcode = .none := by decide
/-- R131, P4 step 4. -/
theorem test_reset_signal :
    (nextOf (step (hostReset { faulted with rx := [0x10, 0] }))).map (fun t => (t.fault, t.fcode, t.lc, t.rx)) =
      some (false, .none, .uninit, []) := by decide
/-- R106, as the first command after reset. -/
theorem test_withFetchWord :
    (nextOf (step (State.reset.withFetchWord 32 0x00000002))).map seen =
      some ⟨[0, 0, 25], .absorbing, [none, none], .ready, []⟩ := by decide
/-- R37, R8: both toy configurations are admitted; one whose MDS is not 3 x 3, P = 1, and the composite P = 121 are not. -/
theorem test_admitted :
    configAdmitted Config.toyA = true ∧ configAdmitted Config.toyB = true ∧
      configAdmitted { Config.toyA with mds := [[1]] } = false ∧ configAdmitted { Config.toyA with p := 1 } = false ∧
      configAdmitted { Config.toyA with p := 121 } = false := by decide

/-! ### The assembler (R61, R62) -/

theorem test_assemble_hash : Asm.assemble "HASH 6, 0x2a ;; two words".toList = some [.hash [6, 42]] := by decide
theorem test_assemble_fold :
    Asm.assemble "FOLD 10, 20, 30; 5, 7; 1".toList = some [.fold [10, 20, 30, 5, 7, 1]] := by decide
theorem test_assemble_pseudo :
    Asm.assemble "ABSORBS 1, 2".toList = some [.absorb 1, .absorb 2] ∧
      Asm.assemble "SQUEEZES 2".toList = some [.squeeze, .squeeze] ∧ Asm.assemble "ADD 1".toList = none ∧
      Asm.assemble "ABSORBS".toList = none := by decide
/-- Counts R61 does not give (notes/assumptions/18.md): another split of FOLD, PERM with two words (the line of vector E8c); a
FOLD of two groups is rejected. -/
theorem test_assemble_counts :
    Asm.assemble "FOLD 1, 2; 3, 4, 5; 1".toList = some [.fold [1, 2, 3, 4, 5, 1]] ∧
      Asm.assemble "PERM 1, 2".toList = some [.perm [1, 2]] ∧ Asm.assemble "FOLD 1, 2, 3; 1".toList = none := by decide

/-! ### Witnesses: for each obligation with hypotheses, values that meet all of them, each clause at a boundary value -/

/-- The invariant of a concrete state whose buffer shape is given by k. -/
theorem invOf {s : State} (k : Nat) (h₁ : FaultRecord s) (h₂ : initPasses s.cfg) (h₃ : LanesOk s.cfg s.lanes)
    (h₄ : BufferOk s.cfg s.buf) (hk : k ≤ s.cfg.rate)
    (ha : s.mode = .absorbing → ∀ i, i < s.cfg.rate → ((slot s.buf i).isSome = true ↔ i < k))
    (hs : s.mode = .squeezing → ∀ i, i < s.cfg.rate → ((slot s.buf i).isSome = true ↔ k ≤ i))
    (hr : s.lc = .ready → Fresh s) (hc : s.lc = .consumed → s.mode = .squeezing) : Inv s :=
  ⟨h₁, fun _ => ⟨h₂, h₃, h₄, ⟨fun h => ⟨k, hk, ha h⟩, fun h => ⟨k, hk, hs h⟩⟩, hr, hc⟩⟩

theorem ready_inv : Inv ready := by
  apply invOf 0 <;> decide
theorem full_inv : Inv full := by
  apply invOf 2 <;> decide
theorem unread_inv : Inv unread := by
  apply invOf 1 <;> decide
theorem empty_inv : Inv empty := by
  apply invOf 2 <;> decide
theorem consumed_inv : Inv consumed := by
  apply invOf 1 <;> decide
theorem readyB_inv : Inv readyB := by
  apply invOf 0 <;> decide
theorem reset_inv : Inv State.reset := ⟨by decide, fun h => absurd rfl h⟩

/-- The state after a command or a step, where there is one. -/
def execTo (i : Instr) (s : State) : State := (nextOf (exec i s)).getD s
def stepTo (s : State) : State := (nextOf (step s)).getD s

theorem exec_to {i : Instr} {s : State} (h : (nextOf (exec i s)).isSome = true) : exec i s = .next (execTo i s) := by
  rw [← nextOf_eq_some, execTo]
  cases he : nextOf (exec i s) <;> simp_all
theorem step_to {s : State} (h : (nextOf (step s)).isSome = true) : step s = .next (stepTo s) := by
  rw [← nextOf_eq_some, stepTo]
  cases he : nextOf (step s) <;> simp_all

/-- A command sent to a state and run. -/
def sent (i : Instr) (s : State) : State := hostSend (encode s.cfg i) s
def ranTo (i : Instr) (s : State) : State := stepTo (sent i s)

theorem reach_ran {c : Config} {s : State} (i : Instr) (hs : Reachable c s) (h : (nextOf (step (sent i s))).isSome = true) :
    Reachable c (ranTo i s) := .step (.send _ hs) (step_to h)

/-- The runs from reset used below: INIT; then a SQUEEZE; or a fault at once. -/
def runInit : State := ranTo .init State.reset
def runSqueeze : State := ranTo .squeeze runInit
def runFault : State := ranTo .squeeze State.reset

theorem runInit_reachable : Reachable Config.toyA runInit := reach_ran _ .start (by decide)
theorem runSqueeze_reachable : Reachable Config.toyA runSqueeze := reach_ran _ runInit_reachable (by decide)
theorem runFault_reachable : Reachable Config.toyA runFault := reach_ran _ .start (by decide)

theorem witness_WordTravelsAsItsBytes :
    511 < 2 ^ ({ Config.toyA with fw := 9 } : Config).fw ∧ 1 < ({ Config.toyA with fw := 9 } : Config).elemBytes := by decide

theorem witness_EncodedCommandIsReceived : (Instr.fold [127, 0, 127, 0, 127, 127]).sendable Config.toyA = true := by decide

theorem witness_ReceivedCommandHasOneSpelling :
    receive Config.toyA [0x10, 0, 1, 0, 127, 9] = .command (.absorb 127) [9] := by decide

theorem witness_FrameLengthFollowsFromHeader :
    ([0x10, 0, 1] : List Byte).length < 4 ∧ 4 ≤ ([0x10, 0, 1, 0] : List Byte).length ∧
      takeFrame Config.toyA [0x12, 0, 1, 0, 5] = some (⟨0x12, 0, [5]⟩, []) := by decide

theorem witness_IncompleteFrameLeavesCoreWaiting :
    (ready.rst = false ∧ configAdmitted ready.cfg = true) ∧ ({ ready with rx := [0, 0, 0] } : State).rx.length < 4 ∧
      ([0x20, 0, 2, 0, 6] : List Byte).length <
        4 + Header.count (BitVec.ofNat 32 (wordOfBytes Config.toyA.byteOrder [0x20, 0, 2, 0])) * Config.toyA.elemBytes := by
  decide

theorem witness_StepRunsReceivedCommand :
    ready.rst = false ∧ configAdmitted ready.cfg = true ∧
      receive ready.cfg [0, 0, 0, 0, 7] = .command .nop [7] ∧
      receive ready.cfg [0x12, 0, 0, 0, 7] = .rejected 0x12 .reservedOpcode [7] := by decide

theorem witness_ReservedOpcodesAreIllegal :
    ready.rst = false ∧ configAdmitted ready.cfg = true ∧ ready.fault = false ∧
      takeFrame ready.cfg [0x03, 0, 0, 0] = some (⟨0x03, 0, []⟩, []) ∧
      takeFrame ready.cfg [0xFF, 0, 0, 0] = some (⟨0xFF, 0, []⟩, []) ∧ Op.ofByte 0x03 = none ∧ Op.ofByte 0xFF = none := by decide

/-- The four disjuncts: RSV = 1, N = 0 for ABSORB, the value P, the mask 2^RATE. -/
theorem witness_MalformedFrameIsBadOperand :
    (ready.rst = false ∧ configAdmitted ready.cfg = true ∧ ready.fault = false) ∧
    (takeFrame ready.cfg [0x00, 1, 0, 0] = some (⟨0x00, 1, []⟩, []) ∧ Op.ofByte 0x00 = some .nop ∧ (1 : BitVec 8) ≠ 0) ∧
    (takeFrame ready.cfg [0x10, 0, 0, 0] = some (⟨0x10, 0, []⟩, []) ∧ requiredCount ready.cfg .absorb = some 1 ∧ 0 ≠ 1) ∧
    (takeFrame ready.cfg [0x10, 0, 1, 0, 97] = some (⟨0x10, 0, [97]⟩, []) ∧ 97 ∈ frameValues ready.cfg .absorb [97] ∧
      ready.cfg.p ≤ 97) ∧
    (takeFrame ready.cfg [0x31, 0, 6, 0, 0, 0, 0, 0, 0, 4] = some (⟨0x31, 0, [0, 0, 0, 0, 0, 4]⟩, []) ∧
      [0, 0, 0, 0, 0, 4][ready.cfg.t + ready.cfg.rate]? = some 4 ∧ 2 ^ ready.cfg.rate ≤ 4) := by decide

theorem witness_WordsAreCanonicalBothWays :
    (ready.fault = false ∧ 128 ∈ (Instr.absorb 128).words ∧ 2 ^ ready.cfg.fw ≤ 128) ∧
    (97 ∈ (Instr.absorb 97).valueWords ready.cfg ∧ ready.cfg.p ≤ 97) ∧
    (Inv ready ∧ configAdmitted ready.cfg = true ∧ exec .padding ready = .next (execTo .padding ready)) :=
  ⟨by decide, by decide, ready_inv, by decide, exec_to (by decide)⟩

/-- A frame to which two faults apply: HASH of one word in CONSUMED (R123's second example). -/
theorem witness_FirstApplicableFaultIsRaised :
    (Inv consumed ∧ consumed.rst = false ∧ configAdmitted consumed.cfg = true ∧ consumed.fault = false ∧
      takeFrame consumed.cfg [0x20, 0, 1, 0, 6] = some (⟨0x20, 0, [6]⟩, [])) ∧
    (faultPriority = [.illegalCmd, .badOperand, .notInit] ++ .consumed ::
        [.hashAfterDuplex, .shape, .rfOdd, .rcLen, .lUnsupported, .msgLen] ∧
      FaultApplies consumed ⟨0x20, 0, [6]⟩ .consumed ∧ FaultApplies consumed ⟨0x20, 0, [6]⟩ .msgLen ∧
      ∀ e ∈ [FaultCode.illegalCmd, .badOperand, .notInit], ¬FaultApplies consumed ⟨0x20, 0, [6]⟩ e) := by
  refine ⟨⟨consumed_inv, by decide⟩, rfl, ⟨by decide, .hash, by decide⟩, ⟨by decide, by decide⟩, fun e he => ?_⟩
  have ho : Op.ofByte 32#8 = some .hash := by decide
  simp only [List.mem_cons, List.not_mem_nil, or_false] at he
  obtain rfl | rfl | rfl := he
  · simp [FaultApplies, ho]
  · simp [FaultApplies, ho, requiredCount, frameValues]
    decide
  · rintro ⟨h, -⟩
    exact absurd h (by decide)

theorem witness_FirstApplicableFaultIsRaised_faulted :
    (Inv faulted ∧ faulted.rst = false ∧ configAdmitted faulted.cfg = true ∧ faulted.fault = true ∧
      takeFrame faulted.cfg [2, 0, 0, 0] = some (⟨2, 0, []⟩, [])) ∧
      ¬((2 : BitVec 8) = 0x01 ∧ (0 : BitVec 8) = 0 ∧ ([] : List Nat) = []) :=
  ⟨⟨⟨by decide, fun h => absurd rfl h⟩, by decide⟩, by decide⟩

/-- No fault applies to a NOP frame. -/
theorem witness_FirstApplicableFaultIsRaised_none :
    Inv ready ∧ takeFrame ready.cfg [0, 0, 0, 0] = some (⟨0, 0, []⟩, []) ∧
      ∀ code ∈ faultPriority, ¬FaultApplies ready ⟨0, 0, []⟩ code := by
  refine ⟨ready_inv, by decide, fun code hc => ?_⟩
  have ho : Op.ofByte 0#8 = some .nop := by decide
  simp only [faultPriority, List.mem_cons, List.not_mem_nil, or_false] at hc
  obtain rfl | rfl | rfl | rfl | rfl | rfl | rfl | rfl | rfl | rfl := hc <;>
    simp [FaultApplies, ho, requiredCount, frameValues]

theorem witness_FaultTakingChangesOnlyTheRecord :
    (sent .squeeze State.reset).fault = false ∧ step (sent .squeeze State.reset) = .next runFault ∧ runFault.fault = true :=
  ⟨by decide, step_to (by decide), by decide⟩

theorem witness_FaultedCoreAnswersOnlyStatus :
    (faulted.rst = false ∧ configAdmitted faulted.cfg = true ∧ faulted.fault = true) ∧
      takeFrame faulted.cfg [1, 1, 0, 0] = some (⟨1, 1, []⟩, []) ∧ takeFrame faulted.cfg [1, 0, 0, 0] = some (⟨1, 0, []⟩, []) := by
  decide

theorem witness_FirstFaultCodeStaysUntilReset :
    (Reachable Config.toyA (sent .squeeze State.reset) ∧ step (sent .squeeze State.reset) = .next runFault ∧
      (sent .squeeze State.reset).fault = false ∧ runFault.fault = true) ∧
    (Reachable Config.toyA (sent .init runFault) ∧ step (sent .init runFault) = .next (ranTo .init runFault) ∧
      (sent .init runFault).fault = true) ∧
    (Reachable Config.toyA (hostReset runFault) ∧ step (hostReset runFault) = .next (stepTo (hostReset runFault)) ∧
      (hostReset runFault).fault = true ∧ (hostReset runFault).rst = true) :=
  ⟨⟨.send _ .start, step_to (by decide), by decide, by decide⟩,
    ⟨.send _ runFault_reachable, step_to (by decide), by decide⟩,
    ⟨.signal runFault_reachable, step_to (by decide), by decide, by decide⟩⟩

theorem witness_LifecycleFaultsAreRaised :
    (State.reset.fault = false ∧ (Instr.fold [0, 0, 0, 0, 0, 3]).operandsOk State.reset.cfg = true ∧ State.reset.lc = .uninit) ∧
    (consumed.fault = false ∧ (Instr.absorb 96).operandsOk consumed.cfg = true ∧ consumed.lc = .consumed) ∧
    (partly.fault = false ∧ (Instr.hash []).operandsOk partly.cfg = true ∧ partly.lc = .duplex) ∧
    (State.reset.fcode = .none ∧ Instr.init.operandsOk State.reset.cfg = true) := by decide

theorem witness_WrongMessageLengthFaultsAtEntry :
    ready.fault = false ∧ ready.lc = .ready ∧ (Instr.hash [6]).operandsOk ready.cfg = true ∧ [6].length ≠ ready.cfg.l ∧
      (Instr.hash [1, 2, 3]).operandsOk ready.cfg = true ∧ [1, 2, 3].length ≠ ready.cfg.l := by decide

theorem witness_InitChecksConfigurationInOrder :
    State.reset.fault = false ∧ Reachable Config.toyA runInit ∧ runInit.lc ≠ .uninit :=
  ⟨by decide, runInit_reachable, by decide⟩

theorem witness_ResetSignalClearsControlState : (hostReset faulted).rst = true := by decide

theorem witness_UnspecifiedResetValuesNeverReachAResult :
    (sent .init State.reset).lc = .uninit ∧ step (sent .init State.reset) = .next runInit ∧ runInit.lc ≠ .uninit :=
  ⟨by decide, step_to (by decide), by decide⟩

theorem witness_LifecycleFollowsItsTable :
    (Inv consumed ∧ consumed.fault = false ∧ exec .squeeze consumed = .next (execTo .squeeze consumed) ∧
      (execTo .squeeze consumed).fault = true ∧ lifecycleTable .squeeze consumed.lc = .error .consumed ∧
      Instr.squeeze.operandsOk consumed.cfg = true) ∧
    (Inv ready ∧ ready.fault = false ∧ exec (.hash [6, 42]) ready = .next (execTo (.hash [6, 42]) ready) ∧
      (execTo (.hash [6, 42]) ready).fault = false) :=
  ⟨⟨consumed_inv, by decide, exec_to (by decide), by decide, rfl, by decide⟩,
    ⟨ready_inv, by decide, exec_to (by decide), by decide⟩⟩

theorem witness_NopChangesNothing : State.reset.fault = false ∧ consumed.fault = false := by decide

theorem witness_StatusWordShowsControlState : Inv State.reset ∧ Inv unread ∧ Inv full := ⟨reset_inv, unread_inv, full_inv⟩

theorem witness_InitBuildsFreshInstance : consumed.fault = false ∧ initPasses consumed.cfg := by decide

/-- Slot 0 of an empty buffer, and the last slot of a partly filled one; the largest value. -/
theorem witness_AbsorbFillsFirstUnsetSlot :
    (ready.fault = false ∧ Usable ready ∧ 96 < ready.cfg.p ∧ 96 < 2 ^ ready.cfg.fw ∧ ready.mode = .absorbing ∧
      ready.buf[0]? = some none ∧ ∀ j, j < 0 → ready.buf[j]? ≠ some none) ∧
    (partly.fault = false ∧ Usable partly ∧ partly.mode = .absorbing ∧
      partly.buf[1]? = some none ∧ ∀ j, j < 1 → partly.buf[j]? ≠ some none) := by decide

theorem witness_AbsorbOverflowRunsDuplexRound :
    full.fault = false ∧ Usable full ∧ 0 < full.cfg.p ∧ 0 < 2 ^ full.cfg.fw ∧ full.mode = .absorbing ∧
      ∀ o ∈ full.buf, o ≠ none := by decide

theorem witness_AbsorbDropsUnreadOutput :
    unread.fault = false ∧ Usable unread ∧ 96 < unread.cfg.p ∧ 96 < 2 ^ unread.cfg.fw ∧ unread.mode = .squeezing := by decide

theorem witness_DiscardedOutputIsUnobservable :
    (unread.fault = false ∧ Usable unread ∧ 7 < unread.cfg.p ∧ 7 < 2 ^ unread.cfg.fw ∧ unread.mode = .squeezing) ∧
    (full.fault = false ∧ full.mode = .absorbing ∧ (∀ o ∈ full.buf, o ≠ none) ∧
      exec (.absorb 3) full = .next (execTo (.absorb 3) full) ∧ (execTo (.absorb 3) full).fault = false) :=
  ⟨by decide, by decide, by decide, by decide, exec_to (by decide), by decide⟩

/-- A full, a partly filled and an empty buffer. -/
theorem witness_SqueezeFromAbsorbingPermutes :
    (full.fault = false ∧ Usable full ∧ full.mode = .absorbing ∧ 1 ≤ full.cfg.rate) ∧
      (partly.fault = false ∧ Usable partly ∧ partly.mode = .absorbing) ∧
      (ready.fault = false ∧ Usable ready ∧ ready.mode = .absorbing) := by decide

theorem witness_SqueezeTakesFirstSetSlot :
    unread.fault = false ∧ Usable unread ∧ unread.mode = .squeezing ∧ unread.buf[1]? = some (some 81) ∧
      ∀ j, j < 1 → unread.buf[j]? = some none := by decide

theorem witness_SqueezeFromEmptyPermutesAsItStands :
    empty.fault = false ∧ Usable empty ∧ empty.mode = .squeezing ∧ 1 ≤ empty.cfg.rate ∧ empty.lanes.length = empty.cfg.t ∧
      ∀ o ∈ empty.buf, o = none := by decide

theorem witness_SqueezeEndsWithinThreePasses :
    1 ≤ ready.cfg.rate ∧ squeezePermutations ready = 1 ∧ squeezePermutations unread = 0 ∧
      (({ Config.toyA with rate := 0 } : Config).rate = 0 ∧ ready.mode = .absorbing ∧ ready.fault = false ∧ Usable ready) ∧
      Reachable Config.toyA runSqueeze ∧ runSqueeze.lc ≠ .uninit :=
  ⟨by decide, by decide, by decide, by decide, runSqueeze_reachable, by decide⟩

/-- L = RATE under TOY-A, and L > RATE under TOY-B. -/
theorem witness_HashIsSpongeOverBlocks :
    (Inv ready ∧ configAdmitted ready.cfg = true ∧ ready.fault = false ∧ ready.lc = .ready ∧ [6, 42].length = ready.cfg.l ∧
      ∀ w ∈ [6, 42], w < ready.cfg.p) ∧
    (Inv readyB ∧ configAdmitted readyB.cfg = true ∧ readyB.fault = false ∧ readyB.lc = .ready ∧
      [1, 2, 96].length = readyB.cfg.l ∧ ∀ w ∈ [1, 2, 96], w < readyB.cfg.p) :=
  ⟨⟨ready_inv, by decide⟩, readyB_inv, by decide⟩

theorem witness_PermReturnsThePermutation :
    consumed.fault = false ∧ consumed.lc ≠ .uninit ∧ [0, 96, 25].length = consumed.cfg.t ∧
      ∀ w ∈ [0, 96, 25], w < consumed.cfg.p ∧ w < 2 ^ consumed.cfg.fw := by decide

theorem witness_FoldAddsMaskedValues :
    ready.fault = false ∧ ready.lc ≠ .uninit ∧ [10, 20, 30].length = ready.cfg.t ∧ [90, 96].length = ready.cfg.rate ∧
      ready.cfg.t = ready.cfg.rate + 1 ∧
      (∀ w ∈ [10, 20, 30] ++ [90, 96], w < ready.cfg.p ∧ w < 2 ^ ready.cfg.fw) ∧ 3 < 2 ^ ready.cfg.rate ∧
      ready.cfg.rate ≤ ready.cfg.fw ∧ [10, 20, 30][1]? = some 20 ∧ [90, 96][1]? = some 96 := by decide

theorem witness_CapivReturnsCapacityValue : consumed.fault = false ∧ consumed.lc ≠ .uninit := by decide

theorem witness_PaddingReturnsZerosAndMask : consumed.fault = false ∧ consumed.lc ≠ .uninit := by decide

theorem witness_CommandsTouchOnlyTheirRegisters :
    (exec (.absorb 3) full = .next (execTo (.absorb 3) full) ∧ (Instr.absorb 3).op = .absorb ∧
      (execTo (.absorb 3) full).lanes ≠ full.lanes ∧ (execTo (.absorb 3) full).fault = full.fault) ∧
    (exec .nop full = .next (execTo .nop full) ∧ Instr.nop.op ∈ [Op.nop, .status, .perm, .fold, .capiv, .padding] ∧
      (execTo .nop full).fault = full.fault) :=
  ⟨⟨exec_to (by decide), by decide⟩, exec_to (by decide), by decide⟩

/-- The table of the three-element field's squares, at its last entry. -/
theorem witness_RoundLanesAreTheMatrixSum :
    0 < Config.toyA.t ∧ 2 < Config.toyA.t ∧ Config.toyA.sbox = .power 5 ∧
      ({ Config.toyA with sbox := .power 0 } : Config).sbox = .power 0 ∧ 2 ≤ Config.toyA.p ∧
      ({ Config.toyA with p := 3, sbox := .table [0, 1, 1] } : Config).sbox = .table [0, 1, 1] ∧
      ([0, 1, 1] : List Nat)[2]? = some 1 := by decide

theorem witness_PermutationFollowsRoundSchedule : Config.toyB.rf % 2 = 0 := by decide

theorem witness_ScheduleCornerCases :
    ({ Config.toyA with rp := 0 } : Config).rp = 0 ∧ ({ Config.toyA with rf := 0 } : Config).rf = 0 ∧
      (State.reset.fault = false ∧ shapeOk { Config.toyA with rf := 1 } = true ∧
        ({ Config.toyA with rf := 1 } : Config).rf % 2 = 1) := by decide

/-- A set slot, an unset one, and the capacity lane. -/
theorem witness_FoldAddsIntoRateLanesOnly :
    [10, 20, 30].length = Config.toyA.t ∧ [some 90, none].length = Config.toyA.rate ∧
      ([10, 20, 30][0]? = some 10 ∧ 0 < Config.toyA.rate ∧ [some 90, none][0]? = some (some 90)) ∧
      (1 < Config.toyA.rate ∧ [some 90, none][1]? = some none) ∧ Config.toyA.rate ≤ 2 ∧
      Canonical Config.toyA [10, 20, 30] := by decide

theorem witness_PaddingChangesNoFold :
    LanesOk (withL 1) [10, 20, 30] ∧ [some 90, none].length = (withL 1).rate := by decide

theorem witness_CapacityEncodingIsInjective :
    let c : Config := { Config.toyA with p := 65535 * 2 ^ 64 + 1 }
    c.lMax * 2 ^ c.capShift + c.outTag < c.p ∧ 65535 ≤ c.lMax ∧ c.lMax ≤ 65535 ∧ c.capShift = 64 ∧ c.outTag = 0 ∧
      65535 * 2 ^ 64 < c.p := by decide

/-- No word, and RATE words. -/
theorem witness_AbsorbThenSqueezeIsDirectConstruction :
    configAdmitted State.reset.cfg = true ∧ State.reset.fault = false ∧
      exec .init State.reset = .next (execTo .init State.reset) ∧ (execTo .init State.reset).fault = false ∧
      ([] : List Nat).length ≤ (execTo .init State.reset).cfg.rate ∧ [6, 96].length ≤ (execTo .init State.reset).cfg.rate ∧
      ∀ w ∈ [6, 96], w < (execTo .init State.reset).cfg.p :=
  ⟨by decide, by decide, exec_to (by decide), by decide⟩

theorem witness_OverflowPathRunsTwoRounds :
    configAdmitted State.reset.cfg = true ∧ State.reset.fault = false ∧
      exec .init State.reset = .next (execTo .init State.reset) ∧ (execTo .init State.reset).fault = false ∧
      [1, 2].length = (execTo .init State.reset).cfg.rate ∧ (∀ w ∈ [1, 2], w < (execTo .init State.reset).cfg.p) ∧
      96 < (execTo .init State.reset).cfg.p :=
  ⟨by decide, by decide, exec_to (by decide), by decide⟩

theorem witness_ExtendedSqueezePermutesAgain :
    (Inv ready ∧ ready.fault = false ∧ Usable ready ∧ ready.mode = .absorbing) ∧ 1 ≤ 2 ∧ 2 ≤ ready.cfg.rate ∧
      Inv full ∧ full.fault = false ∧ Usable full ∧ full.mode = .absorbing :=
  ⟨⟨ready_inv, by decide⟩, by decide, by decide, full_inv, by decide⟩

theorem witness_ModeSwitchDiscardsUnreadOutput :
    Inv unread ∧ unread.fault = false ∧ Usable unread ∧ unread.mode = .squeezing ∧ 96 < unread.cfg.p ∧
      96 < 2 ^ unread.cfg.fw := ⟨unread_inv, by decide⟩

theorem witness_HashEqualsRawDuplex :
    (Inv ready ∧ configAdmitted ready.cfg = true ∧ ready.fault = false ∧ ready.lc = .ready ∧ [6, 42].length = ready.cfg.l ∧
      (∀ w ∈ [6, 42], w < ready.cfg.p) ∧ ready.cfg.l ≤ ready.cfg.rate) ∧
    (Inv readyB ∧ configAdmitted readyB.cfg = true ∧ readyB.lc = .ready ∧ [1, 2, 3].length = readyB.cfg.l ∧
      readyB.cfg.rate < readyB.cfg.l) := ⟨⟨ready_inv, by decide⟩, readyB_inv, by decide⟩

/-- The first word and the last: k = 1 and k = L = RATE + 1. -/
theorem witness_HashPermutationCount :
    Inv readyB ∧ readyB.lc = .ready ∧ [1, 2, 3].length = readyB.cfg.l ∧ 1 ≤ 1 ∧ 3 ≤ readyB.cfg.l ∧ readyB.cfg.rate < 3 :=
  ⟨readyB_inv, by decide⟩

theorem witness_HashOfFreshInstanceIsDeterministic :
    State.reset.cfg = consumed.cfg ∧ configAdmitted State.reset.cfg = true ∧ initPasses State.reset.cfg ∧
      State.reset.fault = false ∧ consumed.fault = false ∧ [6, 42].length = State.reset.cfg.l ∧
      ∀ w ∈ [6, 42], w < State.reset.cfg.p := by decide

theorem witness_ResponseHeaderLayout :
    (⟨0x11, .ok, .none, []⟩ : Response).words.length ≤ 65535 ∧
      (⟨0x33, .ok, .none, List.replicate 65535 0⟩ : Response).words.length ≤ 65535 :=
  ⟨by decide, by simp only [List.length_replicate, le_refl]⟩

theorem witness_EveryCommandGetsOneResponse :
    exec (.hash [6, 42]) ready = .next (execTo (.hash [6, 42]) ready) ∧ exec .init faulted = .next (execTo .init faulted) ∧
      exec .squeeze consumed = .next (execTo .squeeze consumed) :=
  ⟨exec_to (by decide), exec_to (by decide), exec_to (by decide)⟩

/-- A STATUS word of 4 bytes and the largest 1-byte word. -/
theorem witness_ResponseTravelsAsItsBytes :
    ([0xFFFFFFFF] : List Nat)[0]? = some 0xFFFFFFFF ∧ 0xFFFFFFFF < 256 ^ 4 ∧ Config.toyA.elemBytes = 1 ∧
      ([1, 255] : List Nat)[1]? = some 255 ∧ 255 < 256 ^ 1 := by decide

theorem witness_StepKeepsInvariant :
    Inv full ∧ step { full with rx := encode full.cfg .squeeze } = .next (stepTo { full with rx := encode full.cfg .squeeze }) ∧
      Inv { full with rx := encode full.cfg .squeeze } :=
  ⟨full_inv, step_to (by decide), by apply invOf 2 <;> decide⟩

theorem witness_BufferShapeHoldsInEveryRun :
    (Reachable Config.toyA runInit ∧ runInit.lc ≠ .uninit ∧ runInit.mode = .absorbing) ∧
      (Reachable Config.toyA runSqueeze ∧ runSqueeze.lc ≠ .uninit ∧ runSqueeze.mode = .squeezing) :=
  ⟨⟨runInit_reachable, by decide⟩, runSqueeze_reachable, by decide⟩

theorem witness_StateIsTLanesInEveryRun :
    Reachable Config.toyA runSqueeze ∧ runSqueeze.lc ≠ .uninit ∧ some 55 ∈ runSqueeze.buf :=
  ⟨runSqueeze_reachable, by decide⟩

theorem witness_ConfigurationNeverChanges :
    step (sent .init State.reset) = .next runInit ∧ Reachable Config.toyA runInit := ⟨step_to (by decide), runInit_reachable⟩

theorem witness_EveryStepEndsWithANextState :
    Inv State.reset ∧ configAdmitted State.reset.cfg = true ∧ Inv unread := ⟨reset_inv, by decide, unread_inv⟩

/-- A composite P, too small an FW and a row of the wrong length are each refused; TOY-A is not. -/
theorem witness_OnlyForeignConfigurationIsRefused :
    ready.rst = false ∧ ConfigSound ready.cfg ∧ ¬ConfigSound { ready.cfg with p := 121 } ∧ ¬ConfigSound { ready.cfg with fw := 6 } ∧
      ¬ConfigSound { ready.cfg with rc := [[1, 2]] } :=
  ⟨by decide, configAdmitted_iff.1 (by decide),
    fun h => absurd h.prime (by norm_num), fun h => absurd h.width (by decide),
    fun h => absurd (h.rc rfl [1, 2] (by decide)).1 (by decide)⟩

end Sys2Proof.Tests
end

section
/-! SUPPORT. What one step can do, the core's invariant along every run, and the claims about the architectural state that follow
from it (10_state.md: R21, R23, R24). -/

namespace Sys2Proof.Machine

variable {c : Config} {b : RateBuffer} {s t : State}

/-! ### What a step can do -/

/-- A step resets the core; or moves bytes and responses only (it waits, or refuses the frame); or raises a fault on the frame
it takes; or the command it takes has its effect. -/
theorem step_changes (h : step s = .next t) :
    (s.rst = true ∧ t = applyReset s) ∨
    (∃ rx tx, t = { s with rx := rx, tx := tx }) ∨
    (s.fault = false ∧ ∃ opc code rest, code ≠ .none ∧ t = raiseFault opc code { s with rx := rest }) ∨
    (configAdmitted s.cfg = true ∧ ∃ i rest, Effect i { s with rx := rest } t) := by
  obtain hr | ⟨-, ha, ⟨-, rfl⟩ | ⟨i, rest, -, he⟩ | ⟨opc, e, rest, -, rfl⟩⟩ := step_next_cases h
  · exact .inl hr
  · exact .inr (.inl ⟨t.rx, t.tx, rfl⟩)
  · obtain ⟨-, -, rfl⟩ | ⟨hf, -, code, hc, rfl⟩ | ⟨-, he⟩ := exec_next_cases he
    · exact .inr (.inl ⟨_, _, rfl⟩)
    · exact .inr (.inr (.inl ⟨hf, _, code, rest, hc, rfl⟩))
    · exact .inr (.inr (.inr ⟨ha, i, rest, he⟩))
  · obtain ⟨-, hj⟩ | ⟨hf, hj, hc⟩ := rejectFrame_cases (s := { s with rx := rest }) opc e
    · exact .inr (.inl ⟨_, _, hj⟩)
    · exact .inr (.inr (.inl ⟨hf, _, _, rest, hc, hj⟩))

/-- No step writes CFG (R25). -/
theorem step_cfg (h : step s = .next t) : t.cfg = s.cfg := by
  obtain ⟨-, rfl⟩ | ⟨_, _, rfl⟩ | ⟨-, _, _, _, -, rfl⟩ | ⟨-, _, _, he⟩ := step_changes h
  · rfl
  · rfl
  · rfl
  · exact (effect_frame he).1

/-! ### The invariant -/

/-- What INIT set up does not include the fault record, the channels and the reset line. -/
theorem InstanceOk.withRest (h : InstanceOk s) (fault : Bool) (fcode : FaultCode) (rx : List Byte) (tx : List Response)
    (rst : Bool) : InstanceOk { s with fault := fault, fcode := fcode, rx := rx, tx := tx, rst := rst } :=
  ⟨h.checked, h.lanes, h.buffer, h.shape, h.ready, h.consumed⟩

/-- The invariant survives any change of the fault record, the channels and the reset line that leaves the record consistent. -/
theorem Inv.withRest (h : Inv s) {fault : Bool} {fcode : FaultCode} (hr : fault = false ↔ fcode = .none) (rx : List Byte)
    (tx : List Response) (rst : Bool) : Inv { s with fault := fault, fcode := fcode, rx := rx, tx := tx, rst := rst } :=
  ⟨hr, fun hl => (h.live hl).withRest fault fcode rx tx rst⟩

/-- Once absorbing or squeezing has begun (LC is not READY), nothing is asked of the registers but the sponge's own conditions and, in
CONSUMED, the mode. -/
theorem SpongeOk.instanceOk (h : SpongeOk s) (hc : initPasses s.cfg) (hr : s.lc ≠ .ready)
    (hm : s.lc = .consumed → s.mode = .squeezing) : InstanceOk s := by
  obtain ⟨-, -, hl, hb, hs⟩ := h
  exact ⟨hc, hl, hb, hs, fun h => absurd h hr, hm⟩

/-- SQUEEZE_STEP leaves the registers in order for the lifecycle that SQUEEZE or HASH then writes. -/
theorem squeezeStep_instanceOk {u : Nat} {lc : Lifecycle} (h : SpongeOk s) (hc : initPasses s.cfg) (hlc : lc ≠ .ready)
    (hu : squeezeStep s = some (u, t)) : InstanceOk { t with lc := lc } := by
  have ht : SpongeOk t := (squeezeStep_spongeOk h hu).1
  obtain ⟨_, _, rfl⟩ := squeezeLoop_frame _ _ hu
  exact SpongeOk.instanceOk ht hc hlc fun _ => rfl

theorem Usable.lc_ne_uninit (h : Usable s) : s.lc ≠ .uninit := by
  rcases h with h | h <;> simp [h]

@[simp] theorem absorbAll_cfg (m : List Nat) (s : State) : (absorbAll m s).cfg = s.cfg := by
  obtain ⟨_, _, _, h⟩ := absorbAll_frame m s
  rw [h]

/-- The effect of a command leaves the registers in order, under whatever LC it writes (R104). -/
theorem effect_instanceOk {i : Instr} (hp : 1 ≤ s.cfg.p) (hi : s.lc ≠ .uninit → InstanceOk s) (h : Effect i s t)
    (ht : t.lc ≠ .uninit) : InstanceOk t := by
  cases h with
  | nop | status | perm | fold | capiv | padding => exact (hi ht).withRest _ _ _ _ _
  | init _ hc => exact (newInstance_instanceOk hp hc).withRest _ _ _ _ _
  | absorb _ v hv hu =>
    have hs := hi hu.lc_ne_uninit
    have hk : SpongeOk (absorbStep v s) := absorbStep_spongeOk (hs.spongeOk hp) (canonical_iff.1 hv).2
    have hc : initPasses (absorbStep v s).cfg := by rw [absorbStep_cfg]; exact hs.checked
    exact (SpongeOk.instanceOk (s := { absorbStep v s with lc := .duplex }) hk hc (by simp) (by simp)).withRest _ _ _ _ _
  | squeeze _ s' u hu hq =>
    have hs := hi hu.lc_ne_uninit
    exact (squeezeStep_instanceOk (hs.spongeOk hp) hs.checked (by simp) hq).withRest _ _ _ _ _
  | hash _ s' m u hv hr _ hq =>
    have hs := hi (by simp [hr])
    have hk : SpongeOk (absorbAll m s) :=
      absorbAll_spongeOk (hs.spongeOk hp) fun w hw => (valuesOk_iff.1 hv w hw).2
    have hc : initPasses (absorbAll m s).cfg := by rw [absorbAll_cfg]; exact hs.checked
    exact (squeezeStep_instanceOk hk hc (by simp) hq).withRest _ _ _ _ _

/-- The effect of a command keeps the invariant: it leaves the fault record alone. -/
theorem effect_inv {i : Instr} (hp : 1 ≤ s.cfg.p) (hs : Inv s) (h : Effect i s t) : Inv t := by
  obtain ⟨-, -, -, hf, hc, -⟩ := effect_frame h
  refine ⟨?_, effect_instanceOk hp hs.live h⟩
  rw [FaultRecord, hf, hc]
  exact hs.record

theorem resetWith_inv (c : Config) : Inv (State.resetWith c) :=
  ⟨iff_of_true rfl rfl, fun hl => absurd rfl hl⟩

theorem applyReset_inv (s : State) : Inv (applyReset s) := (resetWith_inv s.cfg).withRest (iff_of_true rfl rfl) _ _ _

theorem step_inv (hs : Inv s) (h : step s = .next t) : Inv t := by
  obtain ⟨-, rfl⟩ | ⟨_, _, rfl⟩ | ⟨-, _, _, _, hc, rfl⟩ | ⟨ha, _, rest, he⟩ := step_changes h
  · exact applyReset_inv s
  · exact hs.withRest hs.record _ _ _
  · exact hs.withRest (by simpa using hc) _ _ _
  · exact effect_inv (s := { s with rx := rest }) (configAdmitted_pos ha) (hs.withRest hs.record _ _ _) he

/-! ### Runs -/

/-- CFG stays what it was at reset (R25). -/
theorem Reachable.cfg_eq (h : Reachable c s) : s.cfg = c := by
  induction h with
  | start => rfl
  | step _ hst ih => rw [step_cfg hst, ih]
  | send _ _ ih => exact ih
  | signal _ ih => exact ih

/-- The invariant holds in every state a run can reach. -/
theorem Reachable.inv (h : Reachable c s) : Inv s := by
  induction h with
  | start => exact resetWith_inv c
  | step _ hst ih => exact step_inv ih hst
  | send bs _ ih => exact ih.withRest ih.record _ _ _
  | signal _ ih => exact ih.withRest ih.record _ _ _

/-! ### The fault record (R23, R24) -/

/-- Once a fault is recorded a step keeps FAULT and FCODE, or resets the core. -/
theorem step_keeps_recorded_fault (hf : s.fault = true) (h : step s = .next t) :
    (t.fault = true ∧ t.fcode = s.fcode) ∨ s.rst = true := by
  obtain ⟨hr, -⟩ | ⟨_, _, rfl⟩ | ⟨hn, -⟩ | ⟨-, _, _, he⟩ := step_changes h
  · exact .inr hr
  · exact .inl ⟨hf, rfl⟩
  · simp [hf] at hn
  · obtain ⟨-, -, -, hf', hc', -⟩ := effect_frame he
    exact .inl ⟨hf'.trans hf, hc'⟩

/-- The step that sets FAULT leaves a code in FCODE, and its last response carries that code. -/
theorem step_sets_fault (hf : s.fault = false) (h : step s = .next t) (ht : t.fault = true) :
    t.fcode ≠ .none ∧ ∃ opc, t.tx = s.tx ++ [⟨opc, .fault, t.fcode, []⟩] := by
  obtain ⟨-, rfl⟩ | ⟨_, _, rfl⟩ | ⟨-, opc, _, _, hc, rfl⟩ | ⟨-, _, _, he⟩ := step_changes h
  · simp at ht
  · simp [hf] at ht
  · exact ⟨hc, opc, rfl⟩
  · obtain ⟨-, -, -, hf', -, -⟩ := effect_frame he
    simp [hf', hf] at ht

/-- Settles O14: the fault record is consistent in every reachable state, and a step takes at most the first fault. -/
theorem firstFaultCodeStaysUntilReset : Obligations.FirstFaultCodeStaysUntilReset := by
  intro c s t hs h
  have hrec : FaultRecord s := hs.inv.record
  refine ⟨fun hf => ⟨hrec.1 hf, step_sets_fault hf h⟩, fun hf => ⟨fun hn => ?_, step_keeps_recorded_fault hf h⟩⟩
  simp [hrec.2 hn] at hf

/-! ### The buffer shape (R21) -/

/-- From whether a slot is set to what stands in the buffer there. -/
theorem getElem?_of_isSome_slot {i : Nat} {P : Prop} (hi : i < b.length) (h : (slot b i).isSome = true ↔ P) :
    (P → ∃ v, b[i]? = some (some v)) ∧ (¬P → b[i]? = some none) := by
  rw [getElem?_of_slot hi, ← h]
  cases slot b i <;> simp

/-- The Absorbing shape in the words of R21. -/
theorem SetPrefix.getElem? (hl : b.length = c.rate) (h : SetPrefix c b) :
    ∃ k, k ≤ c.rate ∧
      ∀ i, i < c.rate → ((i < k → ∃ v, b[i]? = some (some v)) ∧ (k ≤ i → b[i]? = some none)) := by
  obtain ⟨k, hk, hs⟩ := h
  refine ⟨k, hk, fun i hi => ?_⟩
  simpa using getElem?_of_isSome_slot (hl ▸ hi) (hs i hi)

/-- The Squeezing shape in the words of R21. -/
theorem SetSuffix.getElem? (hl : b.length = c.rate) (h : SetSuffix c b) :
    ∃ k, k ≤ c.rate ∧
      ∀ i, i < c.rate → ((i < k → b[i]? = some none) ∧ (k ≤ i → ∃ v, b[i]? = some (some v))) := by
  obtain ⟨k, hk, hs⟩ := h
  refine ⟨k, hk, fun i hi => ?_⟩
  simpa [and_comm] using getElem?_of_isSome_slot (hl ▸ hi) (hs i hi)

/-- Settles O56: the shape is part of the invariant, which holds in every reachable state. -/
theorem bufferShapeHoldsInEveryRun : Obligations.BufferShapeHoldsInEveryRun := by
  intro c s hs hl
  obtain ⟨habs, hsq⟩ := (hs.inv.live hl).shape
  have hlen := (hs.inv.live hl).buffer.1
  rw [hs.cfg_eq] at habs hsq hlen
  exact ⟨fun hm => SetPrefix.getElem? hlen (habs hm), fun hm => SetSuffix.getElem? hlen (hsq hm)⟩

end Sys2Proof.Machine
end

section
/-! SUPPORT. The words that cross the command interface (R38, R39, R51, R53, R59): which operand words are refused, what the result
words of every response satisfy, and the claim about both that follows. -/

namespace Sys2Proof.Machine

variable {c : Config} {s t : State} {i : Instr} {ws : List Nat}

/-! ### Operand words (R38, R51) -/

/-- Well-formed operands fit their width, and their value words are canonical. -/
theorem operandsOk_words (h : i.operandsOk c = true) :
    (∀ w ∈ i.words, w < 2 ^ c.fw) ∧ ∀ w ∈ i.valueWords c, w < c.p := by
  simp only [Instr.operandsOk, Bool.and_eq_true] at h
  obtain ⟨⟨⟨-, hwidth⟩, hvalues⟩, -⟩ := h
  exact ⟨by simpa [Instr.wordsFit] using hwidth, by simpa [Instr.valuesCanonical] using hvalues⟩

/-- A word too wide, or a value word that is not canonical, makes the operands ill formed. -/
theorem operandsOk_eq_false (h : (∃ w ∈ i.words, 2 ^ c.fw ≤ w) ∨ ∃ w ∈ i.valueWords c, c.p ≤ w) :
    i.operandsOk c = false := by
  by_contra hok
  obtain ⟨hwidth, hvalues⟩ := operandsOk_words (Bool.eq_true_of_not_eq_false hok)
  obtain ⟨w, hw, hle⟩ | ⟨w, hw, hle⟩ := h
  · exact absurd (hwidth w hw) (Nat.not_lt.2 hle)
  · exact absurd (hvalues w hw) (Nat.not_lt.2 hle)

/-! ### What the sponge does to the responses sent -/

@[simp] theorem absorbStep_tx (v : Nat) (s : State) : (absorbStep v s).tx = s.tx := by
  obtain ⟨_, _, h⟩ := absorbStep_frame v s
  rw [h]

@[simp] theorem absorbAll_tx (m : List Nat) (s : State) : (absorbAll m s).tx = s.tx := by
  obtain ⟨_, _, _, h⟩ := absorbAll_frame m s
  rw [h]

theorem squeezeStep_tx {u : Nat} (h : squeezeStep s = some (u, t)) : t.tx = s.tx := by
  obtain ⟨_, _, rfl⟩ := squeezeLoop_frame _ _ h
  rfl

/-! ### Result words (R38, R53, R59) -/

/-- The result words that carry elements of F are canonical, and every result word but STATUS's fits FW bits (R38). -/
structure ResultWordsOk (c : Config) (op : Op) (ws : List Nat) : Prop where
  values : ∀ w ∈ valueResults c op ws, w < c.p
  width : op ≠ .status → ∀ w ∈ ws, w < 2 ^ c.fw

theorem mem_of_mem_valueResults {op : Op} {w : Nat} (h : w ∈ valueResults c op ws) : w ∈ ws := by
  cases op with
  | status => cases h
  | padding => exact List.mem_of_mem_take h
  | nop | init | absorb | squeeze | hash | perm | fold | capiv => exact h

/-- Canonical words are in order as the result of any command. -/
theorem resultWordsOk_of_canonical (ha : configAdmitted c = true) (h : Canonical c ws) (op : Op) : ResultWordsOk c op ws :=
  ⟨fun w hw => h w (mem_of_mem_valueResults hw), fun _ w hw => lt_word_of_lt_p ha (h w hw)⟩

theorem canonical_nil : Canonical c [] := fun _ hw => absurd hw List.not_mem_nil

theorem canonical_singleton {u : Nat} (hu : u < c.p) : Canonical c [u] := List.forall_mem_singleton.2 hu

/-- The STATUS word carries no element of F, and its width is 32 bits whatever FW is (R60). -/
theorem resultWordsOk_status : ResultWordsOk c .status ws :=
  ⟨canonical_nil, fun h => absurd rfl h⟩

/-- PADDING's mask has RATE bits, which INIT's SHAPE check fits into a word (R52, R101, R120). -/
theorem bufferMask_pad_lt (h : initPasses c) : bufferMask (pad c) < 2 ^ c.fw := by
  obtain ⟨⟨-, -, -, hrate⟩, -⟩ := initPasses_iff.1 h
  refine Nat.lt_pow_two_of_testBit _ fun j hj => ?_
  have hlen : (pad c).length ≤ j := by simpa [pad] using hrate.trans hj
  rw [bufferMask_testBit, slot_none_of_le hlen]
  rfl

theorem resultWordsOk_padding (ha : configAdmitted c = true) (h : initPasses c) :
    ResultWordsOk c .padding (bufferValues (pad c) ++ [bufferMask (pad c)]) := by
  have hzero : Canonical c (List.replicate c.rate 0) := fun w hw =>
    List.eq_of_mem_replicate hw ▸ configAdmitted_pos ha
  rw [bufferValues_pad]
  constructor
  · rwa [valueResults, List.take_left' List.length_replicate]
  · intro _ w hw
    obtain hw | hw := List.mem_append.1 hw
    · exact lt_word_of_lt_p ha (hzero w hw)
    · rw [List.mem_singleton.1 hw]
      exact bufferMask_pad_lt h

/-- FOLD's state operand is canonical when its operands pass the checks (R51, R102). -/
theorem foldState_canonical {w : List Nat} (h : badFF c w = false) : Canonical c (foldState c w) := by
  simp only [badFF, Bool.or_eq_false_iff, Bool.not_eq_false', valuesOk_iff] at h
  obtain ⟨⟨-, hvalues⟩, -⟩ := h
  exact fun x hx => (hvalues x (List.take_subset_take_left w (Nat.le_add_right _ _) hx)).2

/-- A command that has its effect sends one response, and the words of that response are in order. -/
theorem effect_resultWordsOk (ha : configAdmitted s.cfg = true) (hi : s.lc ≠ .uninit → InstanceOk s) (h : Effect i s t) :
    ∃ r : Response, t.tx = s.tx ++ [r] ∧ ResultWordsOk s.cfg i.op r.words := by
  have hp : 1 ≤ s.cfg.p := configAdmitted_pos ha
  cases h with
  | status => exact ⟨_, rfl, resultWordsOk_status⟩
  | nop | init => exact ⟨_, rfl, resultWordsOk_of_canonical ha canonical_nil _⟩
  | absorb _ v => exact ⟨_, congrArg (· ++ _) (absorbStep_tx v s), resultWordsOk_of_canonical ha canonical_nil _⟩
  | squeeze _ s' u hu hq =>
    have hs : SpongeOk s := (hi hu.lc_ne_uninit).spongeOk hp
    have hlt : u < s.cfg.p := (squeezeStep_spongeOk hs hq).2
    have htx : s'.tx = s.tx := squeezeStep_tx hq
    exact ⟨_, congrArg (· ++ _) htx, resultWordsOk_of_canonical ha (canonical_singleton hlt) _⟩
  | hash _ s' m u hv hr _ hq =>
    have hs : SpongeOk s := (hi (by simp [hr])).spongeOk hp
    have hm : SpongeOk (absorbAll m s) := absorbAll_spongeOk hs fun w hw => (valuesOk_iff.1 hv w hw).2
    have hlt : u < s.cfg.p := by simpa using (squeezeStep_spongeOk hm hq).2
    have htx : s'.tx = s.tx := (squeezeStep_tx hq).trans (absorbAll_tx m s)
    exact ⟨_, congrArg (· ++ _) htx, resultWordsOk_of_canonical ha (canonical_singleton hlt) _⟩
  | perm _ x hl hv =>
    have hx : LanesOk s.cfg x := ⟨hl, fun w hw => (valuesOk_iff.1 hv w hw).2⟩
    exact ⟨_, rfl, resultWordsOk_of_canonical ha (permute_lanesOk hp hx).2 _⟩
  | fold _ w hw => exact ⟨_, rfl, resultWordsOk_of_canonical ha (fold_canonical hp (foldState_canonical hw)) _⟩
  | capiv => exact ⟨_, rfl, resultWordsOk_of_canonical ha (canonical_singleton (capIv_lt hp)) _⟩
  | padding _ hl => exact ⟨_, rfl, resultWordsOk_padding ha (hi hl).checked⟩

/-- Whatever a command does, it sends one response, and the words of that response are in order: a refusal and a fault carry none. -/
theorem exec_resultWordsOk (hs : Inv s) (ha : configAdmitted s.cfg = true) (h : exec i s = .next t) :
    ∃ r : Response, t.tx = s.tx ++ [r] ∧ ResultWordsOk s.cfg i.op r.words := by
  obtain ⟨-, -, rfl⟩ | ⟨-, -, _, -, rfl⟩ | ⟨-, he⟩ := exec_next_cases h
  · exact ⟨_, rfl, resultWordsOk_of_canonical ha canonical_nil _⟩
  · exact ⟨_, rfl, resultWordsOk_of_canonical ha canonical_nil _⟩
  · exact effect_resultWordsOk ha hs.live he

/-- Settles O10: a bad word makes the operands ill formed, the first thing every command checks; and the words of the one response sent
are in order, whether the command is refused, raises a fault or has its effect. -/
theorem wordsAreCanonicalBothWays : Obligations.WordsAreCanonicalBothWays := by
  refine ⟨fun s i hf hw => exec_badOperand hf (operandsOk_eq_false hw), fun s t i hs ha h => ?_⟩
  obtain ⟨r, htx, hr⟩ := exec_resultWordsOk hs ha h
  exact ⟨r, htx, hr.values, hr.width⟩

end Sys2Proof.Machine
end

section
/-! SUPPORT. Frames that are no well-formed command (R55, R56, R119): the reserved opcodes, a frame's BAD_OPERAND conditions against
the checks on the command it decodes to, and the two claims about such frames. -/

namespace Sys2Proof.Machine

variable {c : Config} {s : State} {f : Frame} {rest : List Byte} {i : Instr}

/-! ### Reserved opcodes (R55) -/

/-- A byte is no defined opcode exactly when it is none of the ten codes, and those leave the ranges of R55. -/
theorem ofByte_eq_none_iff (b : BitVec 8) : Op.ofByte b = none ↔
    ((0x03 ≤ b.toNat ∧ b.toNat ≤ 0x0F) ∨ (0x12 ≤ b.toNat ∧ b.toNat ≤ 0x1F) ∨
      (0x21 ≤ b.toNat ∧ b.toNat ≤ 0x2F) ∨ (0x34 ≤ b.toNat ∧ b.toNat ≤ 0xFF)) := by
  have hlt : b.toNat < 256 := b.isLt
  have hcodes : Op.ofByte b = none ↔ ∀ o ∈ Op.all, o.code.toNat ≠ b.toNat := by
    simp [Op.ofByte, ← BitVec.toNat_inj]
  simp only [hcodes, Op.all, List.forall_mem_cons, Op.code, BitVec.ofNat_eq_ofNat, BitVec.reduceToNat, List.not_mem_nil,
    IsEmpty.forall_iff, implies_true, and_true]
  omega

/-! ### Frames the decoder rejects (R119, R123) -/

/-- A frame that is no command raises its fault in a core without one, and the step changes nothing else. -/
theorem step_rejects {e : DecodeError} (hr : s.rst = false) (ha : configAdmitted s.cfg = true) (hf : s.fault = false)
    (ht : takeFrame s.cfg s.rx = some (f, rest)) (hd : decodeFrame f = .error e) :
    step s = .next (raiseFault f.opc (DecodeError.code e) { s with rx := rest }) := by
  rw [step_frame hr ha ht, hd]
  simp [rejectFrame, hf]

/-- A frame with a reserved opcode faults with ILLEGAL_CMD. -/
theorem step_illegalCmd (hr : s.rst = false) (ha : configAdmitted s.cfg = true) (hf : s.fault = false)
    (ht : takeFrame s.cfg s.rx = some (f, rest)) (ho : Op.ofByte f.opc = none) :
    step s = .next (raiseFault f.opc .illegalCmd { s with rx := rest }) :=
  step_rejects (e := .reservedOpcode) hr ha hf ht (by rw [decodeFrame, ho])

/-- Settles O8: the codes of the map leave exactly the ranges of R55, and the decoder rejects every other opcode. -/
theorem reservedOpcodesAreIllegal : Obligations.ReservedOpcodesAreIllegal :=
  ⟨ofByte_eq_none_iff, fun _ _ _ hr ha hf ht ho => step_illegalCmd hr ha hf ht ho⟩

/-! ### Malformed frames (R50 to R52, R56) -/

theorem valueWords_eq (c : Config) (i : Instr) : i.valueWords c = frameValues c i.op i.words := by
  cases i <;> rfl

/-- The count required of the opcode is the one the command has; the formats F0 and F1 have it by their decoding (R50). -/
theorem requiredCount_of_countOk (h : i.countOk c = true) {n : Nat} (hn : requiredCount c i.op = some n) :
    i.words.length = n := by
  cases i with
  | hash => cases hn
  | perm | fold => simpa [Instr.countOk, Instr.words, ← Option.some.inj hn] using h
  | nop | status | init | absorb | squeeze | capiv | padding => exact Option.some.inj hn

/-- The mask word of a FOLD whose mask check passes is below 2^RATE (R52). -/
theorem mask_lt_of_maskOk (h : i.maskOk c = true) (ho : i.op = .fold) {k : Nat}
    (hk : i.words[c.t + c.rate]? = some k) : k < 2 ^ c.rate := by
  cases i with
  | fold w =>
    have hmem : k ∈ w.drop (c.t + c.rate) := List.mem_of_getElem? (i := 0) (by simpa [Instr.words] using hk)
    simp only [Instr.maskOk, List.all_eq_true, decide_eq_true_eq] at h
    exact h k hmem
  | nop | status | init | absorb | squeeze | hash | perm | capiv | padding => cases ho

/-- BAD_OPERAND does not apply to the frame of a command whose operands are well formed. -/
theorem not_badOperand_of_operandsOk (h : i.operandsOk s.cfg = true) : ¬FaultApplies s i.frame .badOperand := by
  obtain ⟨hwidth, hvalues⟩ := operandsOk_words h
  simp only [Instr.operandsOk, Bool.and_eq_true] at h
  obtain ⟨⟨⟨hcount, -⟩, -⟩, hmask⟩ := h
  rintro ⟨o, ho, hbad⟩
  obtain rfl : i.op = o := Option.some.inj ((Op.ofByte_code i.op).symm.trans ho)
  obtain hrsv | ⟨n, hn, hlen⟩ | ⟨w, hw, hle⟩ | ⟨w, hw, hle⟩ | ⟨hfold, k, hk, hle⟩ := hbad
  · exact hrsv rfl
  · exact hlen (requiredCount_of_countOk hcount hn)
  · exact absurd (hvalues w (valueWords_eq _ _ ▸ hw)) (Nat.not_lt.2 hle)
  · exact absurd (hwidth w hw) (Nat.not_lt.2 hle)
  · exact absurd (mask_lt_of_maskOk hmask hfold hk) (Nat.not_lt.2 hle)

/-- With a defined opcode, whatever the decoder rejects is a BAD_OPERAND: RSV or the count (R119). -/
theorem decodeError_code_of_op {o : Op} {e : DecodeError} (ho : Op.ofByte f.opc = some o) (h : decodeFrame f = .error e) :
    DecodeError.code e = .badOperand := by
  rw [decode_op ho] at h
  split at h
  · rw [instrOf_error h]
    rfl
  · rw [← Except.error.inj h]
    rfl

/-- A frame to which BAD_OPERAND applies raises it in a core without a fault: the decoder rejects the frame, or the command it reads
has operands that are not well formed. -/
theorem step_badOperand (hr : s.rst = false) (ha : configAdmitted s.cfg = true) (hf : s.fault = false)
    (ht : takeFrame s.cfg s.rx = some (f, rest)) (hb : FaultApplies s f .badOperand) :
    step s = .next (raiseFault f.opc .badOperand { s with rx := rest }) := by
  cases hd : decodeFrame f with
  | error e =>
    obtain ⟨o, ho, -⟩ := hb
    rw [step_rejects hr ha hf ht hd, decodeError_code_of_op ho hd]
  | ok i =>
    obtain rfl : f = i.frame := decodeFrame_ok.1 hd
    have hi : i.operandsOk s.cfg = false := Bool.eq_false_iff.2 fun h => not_badOperand_of_operandsOk h hb
    rw [step_frame hr ha ht, hd]
    exact exec_badOperand (s := { s with rx := rest }) hf hi

/-- Settles O9: each of the four conditions is one under which BAD_OPERAND applies. -/
theorem malformedFrameIsBadOperand : Obligations.MalformedFrameIsBadOperand := by
  intro s f rest o hr ha hf ht ho hbad
  refine step_badOperand hr ha hf ht ⟨o, ho, ?_⟩
  obtain hrsv | hcount | hvalue | hmask := hbad
  · exact .inl hrsv
  · exact .inr (.inl hcount)
  · exact .inr (.inr (.inl hvalue))
  · exact .inr (.inr (.inr (.inr hmask)))

end Sys2Proof.Machine
end

section
/-! SUPPORT. The STATUS word field by field (R60, R118), and the claim about the command STATUS (R111). -/

namespace Sys2Proof.Machine

/-! ### The word as a number -/

/-- Fields side by side, as numbers. -/
theorem toNat_append_eq {v w : Nat} (x : BitVec v) (y : BitVec w) : (x ++ y).toNat = x.toNat * 2 ^ w + y.toNat := by
  rw [BitVec.toNat_append, ← Nat.shiftLeft_add_eq_or_of_lt y.isLt, Nat.shiftLeft_eq]

/-- The STATUS word as a number: each field times the weight of its lowest bit (R60). -/
theorem statusWord_toNat (s : State) : (statusWord s).toNat =
    (BitVec.ofNat 16 (nset s)).toNat * 2 ^ 16 + s.fcode.code.toNat * 2 ^ 8 + (BitVec.ofBool s.fault).toNat * 2 ^ 4 +
      (modeBit s).toNat * 2 ^ 3 + s.lc.code.toNat := by
  change BitVec.toNat (w := 16 + 4 + 4 + 3 + 1 + 1 + 3) (BitVec.ofNat 16 (nset s) ++ 0#4 ++ s.fcode.code ++ 0#3 ++
    BitVec.ofBool s.fault ++ modeBit s ++ s.lc.code) = _
  simp only [toNat_append_eq, BitVec.toNat_zero]
  ring

/-- The fields of the STATUS word, from bit 0 up (R60). -/
theorem statusWord_fields (s : State) :
    (statusWord s).extractLsb' 0 3 = s.lc.code ∧ (statusWord s).extractLsb' 3 1 = modeBit s ∧
    (statusWord s).extractLsb' 4 1 = BitVec.ofBool s.fault ∧ (statusWord s).extractLsb' 5 3 = 0#3 ∧
    (statusWord s).extractLsb' 8 4 = s.fcode.code ∧ (statusWord s).extractLsb' 12 4 = 0#4 ∧
    (statusWord s).extractLsb' 16 16 = BitVec.ofNat 16 (nset s) := by
  simp only [← BitVec.toNat_inj, BitVec.extractLsb'_toNat, Nat.shiftRight_eq_div_pow, statusWord_toNat, BitVec.toNat_zero]
  omega

/-! ### The fields' values -/

theorem faultCode_code_toNat (code : FaultCode) : code.code.toNat = faultNumber code := by cases code <;> rfl

/-- The MODE bit is 1 exactly while an instance is Squeezing. -/
theorem modeBit_zero (s : State) : (modeBit s)[0] = (s.lc != .uninit && s.mode == .squeezing) := by
  by_cases hl : s.lc = .uninit
  · simp [modeBit, hl]
  · cases hm : s.mode <;> simp [modeBit, hl, hm, Mode.code]

/-- A buffer has at most 65535 slots while an instance exists (R120), so NSET fits its 16 bits. -/
theorem nset_lt {s : State} (h : Inv s) : nset s < 2 ^ 16 := by
  unfold nset
  split
  · decide
  · next hl =>
    have hi := h.live hl
    obtain ⟨⟨-, -, hrate, -⟩, -⟩ := initPasses_iff.1 hi.checked
    calc setSlots s.buf ≤ s.buf.length := List.countP_le_length
      _ = s.cfg.rate := hi.buffer.1
      _ < 2 ^ 16 := Nat.lt_succ_of_le hrate

/-- Settles O22: STATUS answers with the STATUS word in every state, and the invariant bounds NSET. -/
theorem statusWordShowsControlState : Obligations.StatusWordShowsControlState := by
  intro s h
  obtain ⟨hlc, hmode, hfault, hlow, hfcode, hhigh, hnset⟩ := statusWord_fields s
  refine ⟨statusWord s, exec_status s, ?_, ?_, ?_, hlow, ?_, hhigh, ?_⟩
  · rw [hlc]
    cases s.lc <;> rfl
  · simpa [modeBit_zero] using congrArg (BitVec.getLsbD · 0) hmode
  · simpa using congrArg (BitVec.getLsbD · 0) hfault
  · rw [hfcode, faultCode_code_toNat]
  · rw [hnset, BitVec.toNat_ofNat, Nat.mod_eq_of_lt (nset_lt h)]
    rfl

end Sys2Proof.Machine
end

section
/-! SUPPORT. The round schedule (R71, R72): which rounds are partial, runs of rounds of one kind, and the claims about PERMUTE's
schedule and its corner cases (R74). -/

namespace Sys2Proof.Machine

variable {c : Config} {r : Nat} {rs : List Nat}

/-! ### The kind of a round -/

theorem isPartialRound_iff : isPartialRound c r = true ↔ c.rf / 2 ≤ r ∧ r < c.rf / 2 + c.rp := by
  simp [isPartialRound]

theorem round_eq_partialRound (h : c.rf / 2 ≤ r ∧ r < c.rf / 2 + c.rp) (s : List Nat) :
    round c s r = partialRound c s r := if_pos (isPartialRound_iff.2 h)

theorem round_eq_fullRound (h : r < c.rf / 2 ∨ c.rf / 2 + c.rp ≤ r) (s : List Nat) : round c s r = fullRound c s r :=
  if_neg fun hp => by have := isPartialRound_iff.1 hp; omega

/-! ### Runs of rounds of one kind -/

theorem foldl_round_eq_partialRound (h : ∀ r ∈ rs, c.rf / 2 ≤ r ∧ r < c.rf / 2 + c.rp) (s : List Nat) :
    rs.foldl (round c) s = rs.foldl (partialRound c) s :=
  List.foldl_ext _ _ _ fun s r hr => round_eq_partialRound (h r hr) s

theorem foldl_round_eq_fullRound (h : ∀ r ∈ rs, r < c.rf / 2 ∨ c.rf / 2 + c.rp ≤ r) (s : List Nat) :
    rs.foldl (round c) s = rs.foldl (fullRound c) s :=
  List.foldl_ext _ _ _ fun s r hr => round_eq_fullRound (h r hr) s

/-- The rounds 0 .. 2h+n-1 in order are the first h, the next n and the last h. -/
theorem range_eq_three_phases (h n : Nat) :
    List.range (2 * h + n) = List.range' 0 h ++ List.range' h n ++ List.range' (h + n) h := by
  have first : List.range' 0 h ++ List.range' h n = List.range' 0 (h + n) := by
    simpa using List.range'_append_1 (s := 0) (m := h) (n := n)
  have last : List.range' 0 (h + n) ++ List.range' (h + n) h = List.range' 0 (h + n + h) := by
    simpa using List.range'_append_1 (s := 0) (m := h + n) (n := h)
  rw [first, last, List.range_eq_range', show 2 * h + n = h + n + h by omega]

/-- Settles O39: the rounds fall into three phases, and within each of them every round is of one kind. -/
theorem permutationFollowsRoundSchedule : Obligations.PermutationFollowsRoundSchedule := by
  intro c s heven
  have hcount : c.rf + c.rp = 2 * (c.rf / 2) + c.rp := by omega
  have opening : ∀ r ∈ List.range' 0 (c.rf / 2), r < c.rf / 2 ∨ c.rf / 2 + c.rp ≤ r := fun r hr => by
    have := List.mem_range'_1.1 hr
    omega
  have middle : ∀ r ∈ List.range' (c.rf / 2) c.rp, c.rf / 2 ≤ r ∧ r < c.rf / 2 + c.rp := fun r hr =>
    List.mem_range'_1.1 hr
  have closing : ∀ r ∈ List.range' (c.rf / 2 + c.rp) (c.rf / 2), r < c.rf / 2 ∨ c.rf / 2 + c.rp ≤ r := fun r hr =>
    .inr (List.mem_range'_1.1 hr).1
  rw [permute, hcount, range_eq_three_phases, List.foldl_append, List.foldl_append, foldl_round_eq_fullRound opening,
    foldl_round_eq_partialRound middle, foldl_round_eq_fullRound closing]

/-! ### The corner cases (R74) -/

theorem permute_of_rp_zero (h : c.rp = 0) (s : List Nat) : permute c s = (List.range c.rf).foldl (fullRound c) s := by
  rw [permute, foldl_round_eq_fullRound (fun r _ => by omega), h, Nat.add_zero]

theorem permute_of_rf_zero (h : c.rf = 0) (s : List Nat) : permute c s = (List.range c.rp).foldl (partialRound c) s := by
  rw [permute, h, Nat.zero_add]
  refine foldl_round_eq_partialRound (fun r hr => ?_) s
  have := List.mem_range.1 hr
  omega

theorem permute_of_no_rounds (hf : c.rf = 0) (hp : c.rp = 0) (s : List Nat) : permute c s = s := by
  rw [permute_of_rf_zero hf, hp, List.range_zero, List.foldl_nil]

/-- INIT reaches the RF check only with SHAPE met (R120). -/
theorem firstFault_initChecks_rfOdd (hs : shapeOk c = true) (h : c.rf % 2 = 1) :
    firstFault (initChecks c) = some .rfOdd := by
  simp [initChecks, firstFault, hs, h]

theorem exec_init_rfOdd {s : State} (hf : s.fault = false) (hs : shapeOk s.cfg = true) (h : s.cfg.rf % 2 = 1) :
    exec .init s = .next (raiseFault Op.init.code .rfOdd s) := by
  rw [exec_init, command_faults hf (firstFault_initChecks_rfOdd hs h)]

/-- Settles O40: each corner case of the schedule by its own lemma, and the rule's examples by evaluation. -/
theorem scheduleCornerCases : Obligations.ScheduleCornerCases :=
  ⟨fun _ s h => permute_of_rp_zero h s, fun _ s h => permute_of_rf_zero h s, fun _ s hf hp => permute_of_no_rounds hf hp s,
    fun _ hf hs h => exec_init_rfOdd hf hs h, by decide, by decide, by decide⟩

end Sys2Proof.Machine
end

section
/-! SUPPORT. ABSORB and SQUEEZE by the case that ABSORB_STEP or SQUEEZE_STEP takes: the exact next state of each, and the claims that
are these cases (41_sponge.md: R78 to R83). -/

namespace Sys2Proof.Machine

variable {s : State} {b : RateBuffer} {i u v : Nat}

/-! ### ABSORB (R78 to R80) -/

/-- Case A1 of ABSORB. -/
theorem exec_absorb_fill (hf : s.fault = false) (hl : Usable s) (hv : v < s.cfg.p) (hw : v < 2 ^ s.cfg.fw)
    (hm : s.mode = .absorbing) (hi : firstUnset s.buf = some i) :
    exec (.absorb v) s = .next { s with
      buf := s.buf.set i (some v), lc := .duplex, tx := s.tx ++ [⟨0x10, .ok, s.fcode, []⟩] } := by
  rw [exec_absorb_runs hf hl hv hw, absorbStep_fill hm hi]
  rfl

/-- Case A2 of ABSORB. -/
theorem exec_absorb_overflow (hf : s.fault = false) (hl : Usable s) (hv : v < s.cfg.p) (hw : v < 2 ^ s.cfg.fw)
    (hm : s.mode = .absorbing) (hb : firstUnset s.buf = none) :
    exec (.absorb v) s = .next { s with
      lanes := duplexLanes s.cfg s.lanes s.buf, mode := .absorbing, buf := freshBuffer s.cfg v, lc := .duplex,
      tx := s.tx ++ [⟨0x10, .ok, s.fcode, []⟩] } := by
  rw [exec_absorb_runs hf hl hv hw, absorbStep_overflow hm hb]
  rfl

/-- Case A3 of ABSORB. -/
theorem exec_absorb_switch (hf : s.fault = false) (hl : Usable s) (hv : v < s.cfg.p) (hw : v < 2 ^ s.cfg.fw)
    (hm : s.mode = .squeezing) :
    exec (.absorb v) s = .next { s with
      mode := .absorbing, buf := freshBuffer s.cfg v, lc := .duplex, tx := s.tx ++ [⟨0x10, .ok, s.fcode, []⟩] } := by
  rw [exec_absorb_runs hf hl hv hw, absorbStep_switch hm]
  rfl

/-! ### How many permutations ABSORB_STEP runs -/

theorem absorbPermutations_fill (hm : s.mode = .absorbing) (hi : firstUnset s.buf = some i) :
    absorbPermutations s = 0 := by simp [absorbPermutations, absorbCase, hm, hi]

theorem absorbPermutations_overflow (hm : s.mode = .absorbing) (hb : firstUnset s.buf = none) :
    absorbPermutations s = 1 := by simp [absorbPermutations, absorbCase, hm, hb]

theorem absorbPermutations_switch (hm : s.mode = .squeezing) : absorbPermutations s = 0 := by
  simp [absorbPermutations, absorbCase, hm]

/-- Settles O24: with a first unset slot ABSORB takes case A1, which runs no permutation. -/
theorem absorbFillsFirstUnsetSlot : Obligations.AbsorbFillsFirstUnsetSlot := by
  intro s v i hf hl hv hw hm hnone hfirst
  have hi : firstUnset s.buf = some i := firstUnset_eq_some.2 ⟨hnone, hfirst⟩
  exact ⟨exec_absorb_fill hf hl hv hw hm hi, absorbPermutations_fill hm hi⟩

/-- Settles O25: a full buffer has no first unset slot, so ABSORB takes case A2. -/
theorem absorbOverflowRunsDuplexRound : Obligations.AbsorbOverflowRunsDuplexRound :=
  fun _ _ hf hl hv hw hm hfull => exec_absorb_overflow hf hl hv hw hm (firstUnset_eq_none.2 hfull)

/-- Settles O26: in Squeezing ABSORB takes case A3, which runs no permutation. -/
theorem absorbDropsUnreadOutput : Obligations.AbsorbDropsUnreadOutput :=
  fun _ _ hf hl hv hw hm => ⟨exec_absorb_switch hf hl hv hw hm, absorbPermutations_switch hm⟩

/-! ### SQUEEZE (R81 to R83) -/

/-- SQUEEZE of an Absorbing instance: cases S1 and S2. -/
theorem exec_squeeze_absorbing (hf : s.fault = false) (hl : Usable s) (hm : s.mode = .absorbing) (hr : 1 ≤ s.cfg.rate) :
    exec .squeeze s = .next { s with
      lanes := duplexLanes s.cfg s.lanes s.buf, mode := .squeezing,
      buf := drained s.cfg (duplexLanes s.cfg s.lanes s.buf), lc := .duplex,
      tx := s.tx ++ [⟨0x11, .ok, s.fcode, [lane (duplexLanes s.cfg s.lanes s.buf) 0]⟩] } := by
  rw [exec_squeeze_runs hf hl (squeezeStep_absorbing hm hr)]
  rfl

/-- SQUEEZE with output unread: case S2. -/
theorem exec_squeeze_take (hf : s.fault = false) (hl : Usable s) (hm : s.mode = .squeezing)
    (hi : firstSet s.buf = some (i, u)) :
    exec .squeeze s = .next { s with
      buf := s.buf.set i none, lc := .duplex, tx := s.tx ++ [⟨0x11, .ok, s.fcode, [u]⟩] } := by
  rw [exec_squeeze_runs hf hl (squeezeStep_take hm hi)]
  rfl

/-- SQUEEZE with no output left: cases S3, S1 and S2, where the fold adds nothing. -/
theorem exec_squeeze_empty (hf : s.fault = false) (hl : Usable s) (hm : s.mode = .squeezing) (hr : 1 ≤ s.cfg.rate)
    (ht : s.lanes.length = s.cfg.t) (hb : firstSet s.buf = none) :
    exec .squeeze s = .next { s with
      lanes := permute s.cfg s.lanes, mode := .squeezing, buf := drained s.cfg (permute s.cfg s.lanes), lc := .duplex,
      tx := s.tx ++ [⟨0x11, .ok, s.fcode, [lane (permute s.cfg s.lanes) 0]⟩] } := by
  have hround : duplexLanes s.cfg s.lanes (unsetBuffer s.cfg) = permute s.cfg s.lanes := by
    rw [duplexLanes, fold_unset ht fun _ _ => slot_unset]
  rw [exec_squeeze_runs hf hl (squeezeStep_refill hm hb hr), hround]
  rfl

/-- Settles O28: in Absorbing SQUEEZE takes S1 and, the rate lanes all being set, S2 at slot 0. -/
theorem squeezeFromAbsorbingPermutes : Obligations.SqueezeFromAbsorbingPermutes :=
  fun _ hf hl hm hr => exec_squeeze_absorbing hf hl hm hr

/-- Settles O29: with a first set slot SQUEEZE takes S2 alone. -/
theorem squeezeTakesFirstSetSlot : Obligations.SqueezeTakesFirstSetSlot :=
  fun _ _ _ hf hl hm hset hfirst => exec_squeeze_take hf hl hm (firstSet_eq_some.2 ⟨hset, hfirst⟩)

/-- Settles O30: with no set slot SQUEEZE takes S3, and the round over the unset buffer folds nothing in. -/
theorem squeezeFromEmptyPermutesAsItStands : Obligations.SqueezeFromEmptyPermutesAsItStands :=
  fun _ hf hl hm hr ht hempty => exec_squeeze_empty hf hl hm hr ht (firstSet_eq_none.2 hempty)

/-! ### A value absorbed in place of unread output (R92) -/

theorem execAll_singleton {i : Instr} (s : State) : execAll [i] s = exec i s := by
  cases h : exec i s <;> simp [execAll, h]

/-- A fresh buffer folds its value into lane 0 and nothing else. -/
theorem fold_freshBuffer {c : Config} {lanes : List Nat} : fold c lanes (freshBuffer c v) = fold c lanes [some v] := by
  rw [← packed_one, fold_packed, List.map_singleton]

/-- Settles O47: ABSORB drops the unread output, so the round that SQUEEZE runs folds in the fresh buffer. -/
theorem modeSwitchDiscardsUnreadOutput : Obligations.ModeSwitchDiscardsUnreadOutput := by
  intro s v hs hf hl hm hv hw y
  have hr : 1 ≤ s.cfg.rate := (hs.live (Usable.lc_ne_uninit hl)).rate_pos
  have hy : duplexLanes s.cfg s.lanes (freshBuffer s.cfg v) = y := congrArg (permute s.cfg) fold_freshBuffer
  refine ⟨_, (execAll_next (exec_absorb_switch hf hl hv hw hm)).trans <| (execAll_singleton _).trans <|
    exec_squeeze_absorbing hf (.inr rfl) rfl hr, hy, ?_⟩
  simp [hy]

end Sys2Proof.Machine
end

section
/-! SUPPORT. A run of SQUEEZEs (R91): while the output of one duplex round lasts each takes the next rate lane, and the one after it
permutes again. -/

namespace Sys2Proof.Machine

variable {c : Config} {s : State} {n : Nat} {lanes : List Nat}

/-! ### The output still unread -/

/-- The rate lanes as a buffer of which the first n have been taken. -/
def unreadFrom (c : Config) (n : Nat) (lanes : List Nat) : RateBuffer :=
  (List.range c.rate).map fun i => if i < n then none else some (lane lanes i)

theorem unreadFrom_one : unreadFrom c 1 lanes = drained c lanes := by
  simp only [unreadFrom, drained, Nat.lt_one_iff]

theorem firstSet_unreadFrom (h : n < c.rate) : firstSet (unreadFrom c n lanes) = some (n, lane lanes n) := by
  rw [firstSet_eq_some]
  refine ⟨by simp [unreadFrom, h], fun j hj => ?_⟩
  simp [unreadFrom, hj, hj.trans h]

theorem firstSet_unreadFrom_rate : firstSet (unreadFrom c c.rate lanes) = none := by
  rw [firstSet_eq_none]
  intro o ho
  obtain ⟨j, hj, rfl⟩ := List.mem_map.1 ho
  exact if_pos (List.mem_range.1 hj)

/-- Taking lane n leaves the lanes after it. -/
theorem unreadFrom_set : (unreadFrom c n lanes).set n none = unreadFrom c (n + 1) lanes := by
  apply List.ext_getElem
  · simp [unreadFrom]
  · intro j _ _
    obtain hj | rfl | hj := Nat.lt_trichotomy j n
    · simp [unreadFrom, hj, hj.ne', hj.le]
    · simp [unreadFrom]
    · simp [unreadFrom, hj.ne, hj.not_gt, hj]

/-! ### The run -/

/-- An Absorbing state after n SQUEEZEs, for 1 ≤ n ≤ RATE: STATE is what the first one's duplex round left, and the others have
taken the rate lanes in order. -/
def squeezed (n : Nat) (s : State) : State :=
  { s with
    lanes := duplexLanes s.cfg s.lanes s.buf, mode := .squeezing,
    buf := unreadFrom s.cfg n (duplexLanes s.cfg s.lanes s.buf), lc := .duplex,
    tx := s.tx ++ (List.range n).map fun i => ⟨0x11, .ok, s.fcode, [lane (duplexLanes s.cfg s.lanes s.buf) i]⟩ }

/-- The first SQUEEZE runs the round (R81). -/
theorem exec_squeeze_first (hf : s.fault = false) (hl : Usable s) (hm : s.mode = .absorbing) (hr : 1 ≤ s.cfg.rate) :
    exec .squeeze s = .next (squeezed 1 s) := by
  rw [exec_squeeze_absorbing hf hl hm hr, squeezed, unreadFrom_one]
  rfl

/-- A SQUEEZE before the round's output is used up takes its next lane (R82). -/
theorem exec_squeeze_squeezed (hf : s.fault = false) (h : n < s.cfg.rate) :
    exec .squeeze (squeezed n s) = .next (squeezed (n + 1) s) := by
  have htake := exec_squeeze_take (s := squeezed n s) hf (.inr rfl) rfl (firstSet_unreadFrom h)
  rw [htake]
  simp [squeezed, unreadFrom_set, List.range_succ]

/-- SQUEEZEs 1 to RATE return the rate lanes of one round in order. -/
theorem execAll_squeezes (hf : s.fault = false) (hl : Usable s) (hm : s.mode = .absorbing) (hn : 1 ≤ n)
    (h : n ≤ s.cfg.rate) : execAll (List.replicate n .squeeze) s = .next (squeezed n s) := by
  induction n, hn using Nat.le_induction with
  | base => rw [List.replicate_one, execAll_singleton, exec_squeeze_first hf hl hm h]
  | succ n _ ih => rw [List.replicate_succ', execAll_append (ih (by omega)), execAll_singleton, exec_squeeze_squeezed hf h]

/-- Settles O46: after RATE SQUEEZEs the buffer is empty, and the next one permutes the state as it stands (R83). -/
theorem extendedSqueezePermutesAgain : Obligations.ExtendedSqueezePermutesAgain := by
  intro s hs hf hl hm y
  have hr : 1 ≤ s.cfg.rate := (hs.live (Usable.lc_ne_uninit hl)).rate_pos
  refine ⟨fun n hn h => ⟨squeezed n s, execAll_squeezes hf hl hm hn h, rfl, rfl⟩, ?_⟩
  have hrun := execAll_squeezes hf hl hm hr le_rfl
  have hlast := exec_squeeze_empty (s := squeezed s.cfg.rate s) hf (.inr rfl) rfl hr (permute_length fold_length)
    firstSet_unreadFrom_rate
  rw [List.replicate_succ', execAll_append hrun, execAll_singleton]
  exact ⟨_, hlast, rfl, rfl⟩

end Sys2Proof.Machine
end

section
/-! SUPPORT. Messages absorbed right after INIT (R89, R90): the buffer takes the first RATE words, and folding it into the state INIT
leaves is building the permutation's input directly. -/

namespace Sys2Proof.Machine

variable {c : Config} {s s₀ : State} {m b : List Nat} {v : Nat}

/-! ### What INIT leaves -/

/-- An INIT after which no fault is recorded passed its checks and built a fresh instance (R106). -/
theorem exec_init_fresh (h : exec .init s₀ = .next s) (hf : s.fault = false) :
    s.cfg = s₀.cfg ∧ initPasses s.cfg ∧ s.lc = .ready ∧ Fresh s := by
  obtain ⟨hf₀, -, rfl⟩ | ⟨-, -, _, -, rfl⟩ | ⟨-, he⟩ := exec_next_cases h
  · simp [hf₀] at hf
  · simp at hf
  · cases he with
    | init _ hc => exact ⟨rfl, hc, rfl, rfl, rfl, rfl⟩

theorem lane_append_left {xs ys : List Nat} {i : Nat} (h : i < xs.length) : lane (xs ++ ys) i = lane xs i :=
  List.getD_append _ _ _ _ h

theorem lane_append_right {xs ys : List Nat} {i : Nat} (h : xs.length ≤ i) :
    lane (xs ++ ys) i = lane ys (i - xs.length) := List.getD_append_right _ _ _ _ h

theorem lane_replicate_zero (n i : Nat) : lane (List.replicate n 0) i = 0 := by
  by_cases h : i < n <;> simp [lane, List.getD_eq_getElem?_getD, h]

theorem lane_initialLanes_of_lt {i : Nat} (h : i < c.rate) : lane (initialLanes c) i = 0 := by
  rw [initialLanes, lane_append_left (by simpa using h), lane_replicate_zero]

theorem lane_initialLanes_rate : lane (initialLanes c) c.rate = capIv c := by
  rw [initialLanes, lane_append_right (by simp), List.length_replicate, Nat.sub_self]
  rfl

theorem foldLane_of_slot_some {lanes : List Nat} {buf : RateBuffer} {i u : Nat} (hi : i < c.rate) (h : slot buf i = some u) :
    foldLane c lanes buf i = addF c (lane lanes i) u := by simp [foldLane, hi, h]

theorem foldLane_of_slot_none {lanes : List Nat} {buf : RateBuffer} {i : Nat} (h : slot buf i = none) :
    foldLane c lanes buf i = lane lanes i := by simp [foldLane, h]

/-- Folding at most RATE canonical words into the state INIT leaves: the words, zeros up to RATE, and the capacity value. -/
theorem fold_initialLanes_packed (ht : c.t = c.rate + 1) (hm : m.length ≤ c.rate) (hc : Canonical c m) :
    fold c (initialLanes c) (packed c m) = m ++ List.replicate (c.rate - m.length) 0 ++ [capIv c] := by
  have hpad : (m ++ List.replicate (c.rate - m.length) 0).length = c.rate := by
    rw [List.length_append, List.length_replicate, Nat.add_sub_cancel' hm]
  have hlen : (m ++ List.replicate (c.rate - m.length) 0 ++ [capIv c]).length = c.t := by
    rw [List.length_append, hpad, ht, List.length_singleton]
  rw [fold_eq, ← map_lane (m ++ _ ++ _), hlen]
  refine List.map_congr_left fun i hi => ?_
  have hi : i < c.t := List.mem_range.1 hi
  obtain hword | ⟨hword, hrate⟩ | rfl : i < m.length ∨ (m.length ≤ i ∧ i < c.rate) ∨ i = c.rate := by omega
  · have hslot : slot (packed c m) i = some m[i] := by rw [slot_packed, List.getElem?_eq_getElem hword]
    have hrate : i < c.rate := hword.trans_le hm
    have hlt : m[i] < c.p := hc _ (List.getElem_mem _)
    rw [foldLane_of_slot_some hrate hslot, lane_initialLanes_of_lt hrate, addF, Nat.zero_add, Nat.mod_eq_of_lt hlt,
      lane_append_left (by rwa [hpad]), lane_append_left hword, lane_eq]
  · have hslot : slot (packed c m) i = none := by rw [slot_packed, List.getElem?_eq_none hword]
    rw [foldLane_of_slot_none hslot, lane_initialLanes_of_lt hrate, lane_append_left (by rwa [hpad]),
      lane_append_right hword, lane_replicate_zero]
  · have hslot : slot (packed c m) c.rate = none := by rw [slot_packed, List.getElem?_eq_none hm]
    rw [foldLane_of_slot_none hslot, lane_initialLanes_rate, lane_append_right hpad.le, hpad, Nat.sub_self]
    rfl

/-! ### Words that fit the buffer -/

theorem absorbAllPermutations_append (m₁ m₂ : List Nat) (s : State) : absorbAllPermutations (m₁ ++ m₂) s =
    absorbAllPermutations m₁ s + absorbAllPermutations m₂ (absorbAll m₁ s) := by
  induction m₁ generalizing s with
  | nil => simp [absorbAllPermutations, absorbAll]
  | cons v m₁ ih =>
    rw [List.cons_append, absorbAllPermutations, absorbAllPermutations, ih, Nat.add_assoc]
    rfl

/-- Words that fit the buffer are absorbed without a permutation (R78). -/
theorem absorbAllPermutations_fill (hm : s.mode = .absorbing) (hb : s.buf = packed s.cfg b)
    (h : b.length + m.length ≤ s.cfg.rate) : absorbAllPermutations m s = 0 := by
  induction m generalizing s b with
  | nil => rfl
  | cons v m ih =>
    rw [List.length_cons] at h
    have hu : firstUnset s.buf = some b.length := by rw [hb]; exact firstUnset_packed (by omega)
    rw [absorbAllPermutations, absorbPermutations_fill hm hu, absorbStep_fill hm hu, Nat.zero_add]
    have hlen : (b ++ [v]).length + m.length ≤ s.cfg.rate := by rw [List.length_append, List.length_singleton]; omega
    refine ih (b := b ++ [v]) hm ?_ hlen
    rw [hb]
    exact packed_set (by omega)

/-- At most RATE words absorbed by a fresh instance stand in the buffer, and nothing else has happened. -/
theorem absorbAll_fresh (h : Fresh s) (hm : m.length ≤ s.cfg.rate) :
    absorbAll m s = { s with buf := packed s.cfg m } ∧ absorbAllPermutations m s = 0 := by
  obtain ⟨-, hmode, hbuf⟩ := h
  have hb : s.buf = packed s.cfg [] := hbuf.trans packed_nil.symm
  exact ⟨absorbAll_fill hmode hb (by simpa using hm), absorbAllPermutations_fill hmode hb (by simpa using hm)⟩

/-- The duplex round over at most RATE words absorbed by a fresh instance permutes the directly built state. -/
theorem duplexLanes_fresh (h : Fresh s) (hc : initPasses s.cfg) (hm : m.length ≤ s.cfg.rate) (hw : Canonical s.cfg m) :
    duplexLanes s.cfg s.lanes (packed s.cfg m) =
      permute s.cfg (m ++ List.replicate (s.cfg.rate - m.length) 0 ++ [capIv s.cfg]) := by
  obtain ⟨hlanes, -, -⟩ := h
  obtain ⟨⟨-, ht, -⟩, -⟩ := initPasses_iff.1 hc
  rw [duplexLanes, hlanes, fold_initialLanes_packed ht hm hw]

/-- Settles O44: the words stand in the buffer until SQUEEZE runs the one round. -/
theorem absorbThenSqueezeIsDirectConstruction : Obligations.AbsorbThenSqueezeIsDirectConstruction := by
  intro s₀ s m ha _ hinit hf hm hw y
  obtain ⟨hcfg, hc, hlc, hs⟩ := exec_init_fresh hinit hf
  rw [← hcfg] at ha
  obtain ⟨⟨hr, -⟩, -⟩ := initPasses_iff.1 hc
  have hmode : s.mode = .absorbing := hs.2.1
  obtain ⟨hall, hperms⟩ := absorbAll_fresh hs hm
  have hy : duplexLanes s.cfg s.lanes (packed s.cfg m) = y := duplexLanes_fresh hs hc hm hw
  have hrun := execAll_absorbs hf (.inl hlc) fun w h => ⟨hw w h, lt_word_of_lt_p ha (hw w h)⟩
  rw [hall] at hrun
  refine ⟨hperms, _, (execAll_append hrun).trans <| (execAll_singleton _).trans <|
    exec_squeeze_absorbing hf ?_ hmode hr, hy, rfl, ?_⟩
  · by_cases h : m = [] <;> simp [Usable, h, hlc]
  · simp [hy]

/-! ### One word more -/

/-- Word RATE + 1 runs the first duplex round and starts a fresh buffer (R79). -/
theorem absorbAll_fresh_overflow (h : Fresh s) (hm : m.length = s.cfg.rate) :
    absorbAll (m ++ [v]) s = { s with
        lanes := duplexLanes s.cfg s.lanes (packed s.cfg m), mode := .absorbing, buf := freshBuffer s.cfg v } ∧
      absorbAllPermutations (m ++ [v]) s = 1 := by
  have hmode : s.mode = .absorbing := h.2.1
  obtain ⟨hall, hperms⟩ := absorbAll_fresh h hm.le
  have hfull : firstUnset (packed s.cfg m) = none := firstUnset_packed_full hm
  constructor
  · rw [absorbAll_append, hall]
    exact absorbStep_overflow (s := { s with buf := packed s.cfg m }) hmode hfull
  · rw [absorbAllPermutations_append, hperms, hall, absorbAllPermutations,
      absorbPermutations_overflow (s := { s with buf := packed s.cfg m }) hmode hfull]
    rfl

/-- Settles O45: word RATE + 1 runs the first round over the directly built state, and SQUEEZE the second over the fresh buffer. -/
theorem overflowPathRunsTwoRounds : Obligations.OverflowPathRunsTwoRounds := by
  intro s₀ s m v ha _ hinit hf hm hw hv y z
  obtain ⟨hcfg, hc, hlc, hs⟩ := exec_init_fresh hinit hf
  rw [← hcfg] at ha
  obtain ⟨⟨hr, -⟩, -⟩ := initPasses_iff.1 hc
  obtain ⟨hall, hperms⟩ := absorbAll_fresh_overflow (v := v) hs hm
  have hy : duplexLanes s.cfg s.lanes (packed s.cfg m) = y := by
    simpa [hm] using duplexLanes_fresh hs hc hm.le hw
  have hwords : ∀ w ∈ m ++ [v], w < s.cfg.p := by simpa [or_imp, forall_and] using ⟨hw, hv⟩
  have hrun := execAll_absorbs hf (.inl hlc) fun w h => ⟨hwords w h, lt_word_of_lt_p ha (hwords w h)⟩
  rw [hall, hy, if_neg (by simp)] at hrun
  have hz : duplexLanes s.cfg y (freshBuffer s.cfg v) = z := congrArg (permute s.cfg) fold_freshBuffer
  refine ⟨hperms, _, hrun, rfl, rfl, rfl, _, exec_squeeze_absorbing hf (.inr rfl) rfl hr, hz, ?_⟩
  simp [hz]

end Sys2Proof.Machine
end

section
/-! SUPPORT. The domain unit (R94, R96, R103): the fold lane by lane, the capacity value of a length that the field holds
unreduced, and the claims about both. -/

namespace Sys2Proof.Machine

variable {c : Config} {s : List Nat} {b : RateBuffer} {i n : Nat}

/-! ### The fold, lane by lane -/

theorem foldLane_of_rate_le (h : c.rate ≤ i) : foldLane c s b i = lane s i := if_neg h.not_gt

theorem fold_getElem? (h : i < c.t) : (fold c s b)[i]? = some (foldLane c s b i) := by
  rw [List.getElem?_eq_getElem (by simpa using h), ← lane_eq, lane_fold h]

/-- A lane into which nothing is added reads as before; past lane T both lists end. -/
theorem fold_getElem?_of_foldLane_eq (hs : s.length = c.t) (h : foldLane c s b i = lane s i) :
    (fold c s b)[i]? = s[i]? := by
  by_cases hi : i < c.t
  · have his : i < s.length := hs ▸ hi
    rw [fold_getElem? hi, h, lane_eq s i his, List.getElem?_eq_getElem his]
  · rw [List.getElem?_eq_none (by simpa using hi), List.getElem?_eq_none (by simpa [hs] using hi)]

/-- Adding 0 keeps a canonical lane, so a slot set to 0 folds as an unset one (R96). -/
theorem fold_set_zero (hs : LanesOk c s) (hi : b[i]? = some none) : fold c s (b.set i (some 0)) = fold c s b := by
  obtain ⟨hlen, hcan⟩ := hs
  obtain ⟨hib, -⟩ := List.getElem?_eq_some_iff.1 hi
  refine fold_congr fun j hj => ?_
  by_cases hij : i = j
  · subst hij
    have hzero : slot (b.set i (some 0)) i = some 0 := by simp [slot_set hib]
    have hlt : lane s i < c.p := by
      rw [lane_eq s i (hlen ▸ hj)]
      exact hcan _ (List.getElem_mem _)
    rw [foldLane_of_slot_none (slot_of_getElem? hi)]
    by_cases hr : i < c.rate
    · rw [foldLane_of_slot_some hr hzero, addF, Nat.add_zero, Nat.mod_eq_of_lt hlt]
    · exact foldLane_of_rate_le (not_lt.1 hr)
  · have hkeep : slot (b.set i (some 0)) j = slot b j := by simp [slot_set hib, Ne.symm hij]
    simp only [foldLane, hkeep]

/-- Settles O41: the case of a lane is its slot's, and `fold_set_zero` compares 0 with an unset slot. -/
theorem foldAddsIntoRateLanesOnly : Obligations.FoldAddsIntoRateLanesOnly := by
  intro c s b hs _
  refine ⟨fold_length, fun i x u hx hi hu => ?_, fun i _ hu => ?_, fun i hi => ?_, fun hc i hu => ?_⟩
  · obtain ⟨his, -⟩ := List.getElem?_eq_some_iff.1 hx
    rw [fold_getElem? (hs ▸ his), foldLane_of_slot_some hi (slot_of_getElem? hu), lane_of_getElem? hx, addF]
  · exact fold_getElem?_of_foldLane_eq hs (foldLane_of_slot_none (slot_of_getElem? hu))
  · exact fold_getElem?_of_foldLane_eq hs (foldLane_of_rate_le hi)
  · exact fold_set_zero ⟨hs, hc⟩ hu

/-! ### The capacity value -/

/-- Below P the capacity value of a supported length is not reduced (R103). -/
theorem capIv_withLength (h : c.lMax * 2 ^ c.capShift + c.outTag < c.p) (hn : n ≤ c.lMax) :
    capIv { c with l := n } = n * 2 ^ c.capShift + c.outTag := by
  have hle : n * 2 ^ c.capShift ≤ c.lMax * 2 ^ c.capShift := Nat.mul_le_mul_right _ hn
  exact Nat.mod_eq_of_lt ((Nat.add_le_add_right hle _).trans_lt h)

/-- Settles O43: an unreduced capacity value determines its length, and TOY-A's P = 97 reduces 97 to 0. -/
theorem capacityEncodingIsInjective : Obligations.CapacityEncodingIsInjective := by
  refine ⟨fun c l₁ l₂ h h₁ h₂ heq => ?_, fun c hmax hshift htag hp => ?_, 0, 97, by decide⟩
  · rw [capIv_withLength h h₁, capIv_withLength h h₂] at heq
    exact Nat.eq_of_mul_eq_mul_right (Nat.two_pow_pos _) (Nat.add_right_cancel heq)
  · rw [hshift, htag, Nat.add_zero]
    exact (Nat.mul_le_mul_right _ hmax).trans_lt hp

end Sys2Proof.Machine
end

section
/-! SUPPORT. The hash sequencer (43_hash_control.md): what HASH and the same words by ABSORB and SQUEEZE leave of a fresh instance
(R107, R109, R115), how many permutations HASH runs (R108), and the lifecycle table (R104). -/

namespace Sys2Proof.Machine

variable {s : State} {m : List Nat}

/-! ### A message absorbed by a fresh instance and squeezed once (R107, R109) -/

/-- A fresh instance after a message has been absorbed and one value squeezed: the last block's output stands in a Squeezing
buffer, lane 0 taken. -/
def sponged (m : List Nat) (s : State) : State :=
  { s with lanes := spongeLanes s.cfg m, mode := .squeezing, buf := drained s.cfg (spongeLanes s.cfg m) }

theorem squeezeStep_absorbAll_fresh (h : Fresh s) (hr : 1 ≤ s.cfg.rate) :
    squeezeStep (absorbAll m s) = some (lane (spongeLanes s.cfg m) 0, sponged m s) := by
  obtain ⟨hlanes, hmode, hbuf⟩ := h
  obtain ⟨hm, hround⟩ := duplex_absorbAll (m := m) hr hmode hbuf
  rw [hlanes, ← spongeLanes] at hround
  obtain ⟨_, _, _, hframe⟩ := absorbAll_frame m s
  rw [squeezeStep_absorbing hm (by rwa [absorbAll_cfg]), absorbAll_cfg, hround, hframe]
  rfl

/-- HASH of a READY instance (R107). -/
theorem exec_hash_fresh (h : Fresh s) (hr : 1 ≤ s.cfg.rate) (hf : s.fault = false) (hl : s.lc = .ready)
    (hm : m.length = s.cfg.l) (hw : ∀ w ∈ m, w < 2 ^ s.cfg.fw ∧ w < s.cfg.p) :
    exec (.hash m) s =
      .next (respondOk .hash [lane (spongeLanes s.cfg m) 0] { sponged m s with lc := .consumed }) :=
  exec_hash_runs hf hl (valuesOk_iff.2 hw) hm (squeezeStep_absorbAll_fresh h hr)

/-- SQUEEZE once the words are absorbed, whatever the ABSORBs wrote to LC and answered. -/
theorem exec_squeeze_absorbAll_fresh (h : Fresh s) (hr : 1 ≤ s.cfg.rate) (hf : s.fault = false) (tx : List Response)
    {lc : Lifecycle} (hl : lc = .ready ∨ lc = .duplex) :
    exec .squeeze { absorbAll m s with lc := lc, tx := tx } = .next { sponged m s with
      lc := .duplex, tx := tx ++ [⟨0x11, .ok, s.fcode, [lane (spongeLanes s.cfg m) 0]⟩] } := by
  have hstep := squeezeStep_absorbAll_fresh (s := { s with lc := lc, tx := tx }) (m := m) h hr
  obtain ⟨_, _, _, hframe⟩ := absorbAll_frame m { s with lc := lc, tx := tx }
  rw [← absorbAll_lc_tx, exec_squeeze_runs (by rw [hframe]; exact hf) (by rw [hframe]; exact hl) hstep]
  rfl

/-- The words of a message by ABSORB, and one SQUEEZE (R85, R86). -/
theorem execAll_absorbs_squeeze_fresh (h : Fresh s) (hr : 1 ≤ s.cfg.rate) (hf : s.fault = false) (hl : Usable s)
    (hw : ∀ w ∈ m, w < s.cfg.p ∧ w < 2 ^ s.cfg.fw) :
    execAll (m.map Instr.absorb ++ [.squeeze]) s = .next { sponged m s with
      lc := .duplex,
      tx := s.tx ++ List.replicate m.length ⟨0x10, .ok, s.fcode, []⟩ ++
        [⟨0x11, .ok, s.fcode, [lane (spongeLanes s.cfg m) 0]⟩] } := by
  rw [execAll_append (execAll_absorbs hf hl hw), execAll_singleton]
  refine exec_squeeze_absorbAll_fresh h hr hf _ ?_
  split
  · exact hl
  · exact .inr rfl

/-- A message of at most RATE words is one block, and its round permutes the directly built state. -/
theorem spongeLanes_short {c : Config} (hc : initPasses c) (hm : m.length ≤ c.rate) (hw : Canonical c m) :
    spongeLanes c m = permute c (m ++ List.replicate (c.rate - m.length) 0 ++ [capIv c]) := by
  obtain ⟨⟨hr, ht, -⟩, -⟩ := initPasses_iff.1 hc
  rw [spongeLanes, blocks_short hm hr, List.foldl_cons, List.foldl_nil, ← fold_packed, fold_initialLanes_packed ht hm hw]

/-- Settles O48: both runs leave `sponged m s`, each with its own LC and responses. -/
theorem hashEqualsRawDuplex : Obligations.HashEqualsRawDuplex := by
  intro s m hs ha hf hl hm hw
  have hi : InstanceOk s := hs.live (by simp [hl])
  have hfits : ∀ w ∈ m, w < 2 ^ s.cfg.fw := fun w h => lt_word_of_lt_p ha (hw w h)
  have hhash := exec_hash_fresh (hi.ready hl) hi.rate_pos hf hl hm fun w h => ⟨hfits w h, hw w h⟩
  have hraw := execAll_absorbs_squeeze_fresh (hi.ready hl) hi.rate_pos hf (.inl hl) fun w h => ⟨hw w h, hfits w h⟩
  refine ⟨_, _, lane (spongeLanes s.cfg m) 0, hhash, rfl, rfl, hraw, rfl, rfl, fun hshort => ?_⟩
  rw [spongeLanes_short hi.checked (hm ▸ hshort) hw, hm]

/-- INIT and HASH one after the other: the value depends on CFG and the message alone (R106, R107). -/
theorem execAll_init_hash (ha : configAdmitted s.cfg = true) (hc : initPasses s.cfg) (hf : s.fault = false)
    (hm : m.length = s.cfg.l) (hw : ∀ w ∈ m, w < s.cfg.p) :
    ∃ t, execAll [.init, .hash m] s = .next t ∧
      t.tx = s.tx ++ [⟨0x02, .ok, s.fcode, []⟩, ⟨0x20, .ok, s.fcode, [lane (spongeLanes s.cfg m) 0]⟩] := by
  obtain ⟨⟨hr, -⟩, -⟩ := initPasses_iff.1 hc
  have hhash := exec_hash_fresh (s := respondOk .init [] (newInstance s)) ⟨rfl, rfl, rfl⟩ hr hf rfl hm
    fun w h => ⟨lt_word_of_lt_p ha (hw w h), hw w h⟩
  rw [execAll_next (exec_init_runs hf hc), execAll_singleton]
  exact ⟨_, hhash, List.append_assoc _ _ _⟩

/-- Settles O50: `execAll_init_hash` for each of the two cores. -/
theorem hashOfFreshInstanceIsDeterministic : Obligations.HashOfFreshInstanceIsDeterministic := by
  intro s₁ s₂ m hcfg ha hc hf₁ hf₂ hm hw
  obtain ⟨t₁, hrun₁, htx₁⟩ := execAll_init_hash ha hc hf₁ hm hw
  rw [hcfg] at ha hc hm hw htx₁
  obtain ⟨t₂, hrun₂, htx₂⟩ := execAll_init_hash ha hc hf₂ hm hw
  exact ⟨t₁, t₂, _, hrun₁, hrun₂, htx₁, htx₂⟩

/-! ### How many permutations HASH runs (R108) -/

/-- A remainder one short of r is the one before a multiple of r. -/
theorem mod_add_one_eq_iff_dvd {n r : Nat} (hr : 1 ≤ r) : n % r + 1 = r ↔ r ∣ n + 1 := by
  have hlt : n % r < r := Nat.mod_lt _ hr
  have hsplit : r ∣ n + 1 ↔ r ∣ n % r + 1 := by
    conv_lhs => rw [← Nat.div_add_mod n r, Nat.add_assoc]
    exact Nat.dvd_add_right (Nat.dvd_mul_right _ _)
  rw [hsplit]
  exact ⟨fun h => dvd_of_eq h.symm, fun h => le_antisymm hlt (Nat.le_of_dvd (Nat.succ_pos _) h)⟩

/-- The word after m runs a permutation exactly when m fills whole blocks, at least one. -/
theorem absorbPermutations_absorbAll_fresh (h : Fresh s) (hr : 1 ≤ s.cfg.rate) :
    absorbPermutations (absorbAll m s) = if 0 < m.length ∧ s.cfg.rate ∣ m.length then 1 else 0 := by
  obtain ⟨-, hmode, hbuf⟩ := h
  obtain ⟨hm, b, hb, hlen⟩ := absorbAll_buf (m := m) hr hmode hbuf
  cases m with
  | nil =>
    have hlen : b.length = 0 := hlen
    rw [if_neg (by simp), absorbPermutations_fill hm (hb ▸ firstUnset_packed (by omega))]
  | cons v m =>
    have hlen : b.length = m.length % s.cfg.rate + 1 := hlen
    have hle : b.length ≤ s.cfg.rate := hlen ▸ Nat.mod_lt _ hr
    have hfull : b.length = s.cfg.rate ↔ s.cfg.rate ∣ (v :: m).length := hlen ▸ mod_add_one_eq_iff_dvd hr
    by_cases hd : s.cfg.rate ∣ (v :: m).length
    · rw [if_pos ⟨Nat.succ_pos _, hd⟩, absorbPermutations_overflow hm (hb ▸ firstUnset_packed_full (hfull.2 hd))]
    · have hlt : b.length < s.cfg.rate := lt_of_le_of_ne hle (hd ∘ hfull.1)
      rw [if_neg (hd ∘ And.right), absorbPermutations_fill hm (hb ▸ firstUnset_packed hlt)]

/-- The absorbs of a message run floor((L-1) / RATE) permutations. -/
theorem absorbAllPermutations_fresh (h : Fresh s) (hr : 1 ≤ s.cfg.rate) :
    absorbAllPermutations m s = (m.length - 1) / s.cfg.rate := by
  induction m using List.reverseRecOn with
  | nil => simp [absorbAllPermutations]
  | append_singleton m v ih =>
    rw [absorbAllPermutations_append, ih, absorbAllPermutations, absorbAllPermutations, Nat.add_zero,
      absorbPermutations_absorbAll_fresh h hr, List.length_append, List.length_singleton, Nat.add_sub_cancel]
    cases m with
    | nil => simp
    | cons w m => simp [Nat.succ_div]

/-- SQUEEZE_STEP from Absorbing runs S1 once, and S2 ends it (R81). -/
theorem squeezePermutations_absorbing (hm : s.mode = .absorbing) (hr : 1 ≤ s.cfg.rate) : squeezePermutations s = 1 := by
  have hrun : squeezeCase s = .run := by simp [squeezeCase, hm]
  have htake : squeezeCase (squeezeRun s) = .take 0 (lane (duplexLanes s.cfg s.lanes s.buf) 0) := by
    simp [squeezeCase, firstSet_rateBuffer hr]
  simp [squeezePermutations, squeezeLoopPermutations, hrun, htake]

/-- floor((n-1) / r) + 1 is max(1, ceil(n / r)). -/
theorem pred_div_add_one_eq_max {n r : Nat} (hr : 1 ≤ r) : (n - 1) / r + 1 = max 1 ((n + r - 1) / r) := by
  cases n with
  | zero => simp [Nat.div_eq_of_lt (Nat.sub_lt hr Nat.one_pos)]
  | succ n =>
    rw [Nat.add_sub_cancel, Nat.add_right_comm, Nat.add_sub_cancel, Nat.add_div_right _ hr]
    exact (max_eq_right (Nat.succ_pos _)).symm

/-- Settles O49: each count is that of a fresh instance, and RATE divides k - 1 ≥ 1 only when k > RATE. -/
theorem hashPermutationCount : Obligations.HashPermutationCount := by
  intro s m hs hl hm
  have hi : InstanceOk s := hs.live (by simp [hl])
  have hfresh : Fresh s := hi.ready hl
  have hr : 1 ≤ s.cfg.rate := hi.rate_pos
  have habsorbs : absorbAllPermutations m s = (s.cfg.l - 1) / s.cfg.rate := hm ▸ absorbAllPermutations_fresh hfresh hr
  have hsqueeze : squeezePermutations (absorbAll m s) = 1 :=
    squeezePermutations_absorbing (duplex_absorbAll hr hfresh.2.1 hfresh.2.2).1 (by rwa [absorbAll_cfg])
  refine ⟨?_, habsorbs, hsqueeze, fun k hk hkl => ?_⟩
  · rw [hashPermutations, habsorbs, hsqueeze, pred_div_add_one_eq_max hr]
  · have hlen : (m.take (k - 1)).length = k - 1 := List.length_take_of_le (by omega)
    rw [absorbPermutations_absorbAll_fresh hfresh hr, hlen]
    refine if_congr ?_ rfl rfl
    rw [← Nat.dvd_iff_mod_eq_zero]
    refine and_congr_left fun hdvd => ⟨fun hpos => ?_, fun hlt => by omega⟩
    have hle : s.cfg.rate ≤ k - 1 := Nat.le_of_dvd hpos hdvd
    omega

/-! ### The lifecycle table (R104) -/

/-- The fault cells of the table, read off it cell by cell (R104). -/
theorem lifecycleTable_eq_error {o : Op} {lc : Lifecycle} {code : FaultCode} (h : lifecycleTable o lc = .error code) :
    (lc = .uninit ∧ code = .notInit ∧ o ∈ [Op.absorb, .squeeze, .hash, .perm, .fold, .capiv, .padding]) ∨
    (lc = .consumed ∧ code = .consumed ∧ o ∈ [Op.absorb, .squeeze, .hash]) ∨
    (lc = .duplex ∧ code = .hashAfterDuplex ∧ o = .hash) := by
  cases o <;> cases lc <;> cases h <;> decide

/-- Without an instance the commands that need one fault with NOT_INIT (R121). -/
theorem exec_notInit {i : Instr} (hf : s.fault = false) (ho : i.operandsOk s.cfg = true) (hl : s.lc = .uninit)
    (hi : i.op ∈ [Op.absorb, .squeeze, .hash, .perm, .fold, .capiv, .padding]) :
    exec i s = .next (raiseFault i.op.code .notInit s) := by
  have hc : notInit s = true := by simp [notInit, hl]
  cases i with
  | nop | status | init => simp [Instr.op] at hi
  | absorb v => exact (exec_absorb v s).trans (command_faults hf (by simp [firstFault, badF1_ok ho, hc]))
  | squeeze => exact (exec_squeeze s).trans (command_faults hf (by simp [firstFault, hc]))
  | hash m => exact (exec_hash m s).trans (command_faults hf (by simp [firstFault, badFV_ok ho, hc]))
  | perm x => exact (exec_perm x s).trans (command_faults hf (by simp [firstFault, badFT_ok ho, hc]))
  | fold w => exact (exec_fold w s).trans (command_faults hf (by simp [firstFault, badFF_ok ho, hc]))
  | capiv => exact (exec_capiv s).trans (command_faults hf (by simp [firstFault, hc]))
  | padding => exact (exec_padding s).trans (command_faults hf (by simp [firstFault, hc]))

/-- After HASH the commands of the sponge fault with CONSUMED (R121). -/
theorem exec_consumed {i : Instr} (hf : s.fault = false) (ho : i.operandsOk s.cfg = true) (hl : s.lc = .consumed)
    (hi : i.op ∈ [Op.absorb, .squeeze, .hash]) : exec i s = .next (raiseFault i.op.code .consumed s) := by
  have hn : notInit s = false := by simp [notInit, hl]
  have hc : isConsumed s = true := by simp [isConsumed, hl]
  cases i with
  | nop | status | init | perm | fold | capiv | padding => simp [Instr.op] at hi
  | absorb v => exact (exec_absorb v s).trans (command_faults hf (by simp [firstFault, badF1_ok ho, hn, hc]))
  | squeeze => exact (exec_squeeze s).trans (command_faults hf (by simp [firstFault, hn, hc]))
  | hash m => exact (exec_hash m s).trans (command_faults hf (by simp [firstFault, badFV_ok ho, hn, hc]))

/-- HASH of an instance in raw duplex use faults with HASH_AFTER_DUPLEX (R121). -/
theorem exec_hashAfterDuplex (hf : s.fault = false) (ho : (Instr.hash m).operandsOk s.cfg = true) (hl : s.lc = .duplex) :
    exec (.hash m) s = .next (raiseFault Op.hash.code .hashAfterDuplex s) := by
  exact (exec_hash m s).trans <|
    command_faults hf (by simp [firstFault, badFV_ok ho, notInit, isConsumed, afterDuplex, hl])

/-- Where the table's cell is a fault, a command with good operands raises it. -/
theorem exec_lifecycle_fault {i : Instr} {code : FaultCode} (hf : s.fault = false) (ho : i.operandsOk s.cfg = true)
    (h : lifecycleTable i.op s.lc = .error code) : exec i s = .next (raiseFault i.op.code code s) := by
  obtain ⟨hl, rfl, hi⟩ | ⟨hl, rfl, hi⟩ | ⟨hl, rfl, hi⟩ := lifecycleTable_eq_error h
  · exact exec_notInit hf ho hl hi
  · exact exec_consumed hf ho hl hi
  · cases i with
    | hash m => exact exec_hashAfterDuplex hf ho hl
    | nop | status | init | absorb | squeeze | perm | fold | capiv | padding => simp [Instr.op] at hi

/-- A command of a core without a fault raises one and leaves LC alone, or moves LC as its cell says. -/
theorem exec_moves_lc {i : Instr} {t : State} (hf : s.fault = false) (h : exec i s = .next t) :
    (t.fault = true ∧ t.lc = s.lc) ∨ (t.fault = false ∧ lifecycleTable i.op s.lc = .ok t.lc) := by
  obtain ⟨hf', -, -⟩ | ⟨-, -, code, -, rfl⟩ | ⟨-, he⟩ := exec_next_cases h
  · simp [hf] at hf'
  · exact .inl ⟨rfl, rfl⟩
  · obtain ⟨-, -, -, hfault, -⟩ := effect_frame he
    exact .inr ⟨hfault.trans hf, effect_lc he⟩

/-- Settles O20: a fault leaves LC alone, an effect moves it as its cell says, and a fault cell is raised at entry. -/
theorem lifecycleFollowsItsTable : Obligations.LifecycleFollowsItsTable := by
  intro s t i _ hf h
  refine ⟨fun ht => ?_, fun ht => ?_, fun code hcell ho => ?_⟩
  · obtain ⟨-, hlc⟩ | ⟨hno, -⟩ := exec_moves_lc hf h
    · exact hlc
    · simp [hno] at ht
  · obtain ⟨hyes, -⟩ | ⟨-, hlc⟩ := exec_moves_lc hf h
    · simp [hyes] at ht
    · exact hlc
  · have ht : raiseFault i.op.code code s = t := Host.Outcome.next.inj ((exec_lifecycle_fault hf ho hcell).symm.trans h)
    subst ht
    exact ⟨rfl, rfl⟩

end Sys2Proof.Machine
end

section
/-! SUPPORT. The order of the faults (R123): the checks that a command makes hold exactly for the faults that apply to its frame, in the
order of R123; and the claim that the first of them is raised. -/

namespace Sys2Proof.Machine

variable {s : State} {f : Frame} {rest : List Byte} {i : Instr} {checks : List (Bool × FaultCode)} {code : FaultCode}

/-! ### The first of a list of checks -/

theorem firstFault_eq_none_iff : firstFault checks = none ↔ ∀ code, (true, code) ∉ checks := by
  simp [firstFault_eq_none, Bool.forall_bool]

/-- When the codes of the checks stand in a given order, the first code in that order whose check holds is the one found. -/
theorem firstFault_of_first_in_order {pre post : List FaultCode} (hsub : (checks.map Prod.snd).Sublist (pre ++ code :: post))
    (hnodup : (pre ++ code :: post).Nodup) (hcode : (true, code) ∈ checks) (hpre : ∀ e ∈ pre, (true, e) ∉ checks) :
    firstFault checks = some code := by
  induction pre generalizing checks with
  | nil =>
    have hpost : code ∉ post := (List.nodup_cons.1 hnodup).1
    cases checks with
    | nil => simp at hcode
    | cons p checks =>
      obtain hskip | ⟨hhead, htail⟩ := List.cons_sublist_cons'.1 hsub
      · exact absurd (hskip.subset (List.mem_map_of_mem hcode)) hpost
      · obtain rfl | hmem := List.mem_cons.1 hcode
        · rfl
        · exact absurd (htail.subset (List.mem_map_of_mem hmem)) hpost
  | cons a pre ih =>
    have hnodup' : (pre ++ code :: post).Nodup := (List.nodup_cons.1 hnodup).2
    have hpre' : ∀ e ∈ pre, (true, e) ∉ checks := fun e he => hpre e (List.mem_cons_of_mem a he)
    cases checks with
    | nil => simp at hcode
    | cons p checks =>
      obtain hskip | ⟨hhead, htail⟩ := List.cons_sublist_cons'.1 hsub
      · exact ih hskip hnodup' hcode hpre'
      · obtain ⟨b, e⟩ := p
        obtain rfl : e = a := hhead
        cases b with
        | true => exact absurd (List.mem_cons_self ..) (hpre e (List.mem_cons_self ..))
        | false =>
          exact ih (checks := checks) htail hnodup' (by simpa using hcode) fun e he hmem => hpre' e he (List.mem_cons_of_mem _ hmem)

/-! ### The checks of each command -/

/-- The checks of a command, in the order in which its meaning makes them. -/
def checksOf (s : State) : Instr → List (Bool × FaultCode)
  | .nop | .status => []
  | .init => initChecks s.cfg
  | .absorb v => [(badF1 s.cfg v, .badOperand), (notInit s, .notInit), (isConsumed s, .consumed)]
  | .squeeze => [(notInit s, .notInit), (isConsumed s, .consumed)]
  | .hash m =>
    [(badFV s.cfg m, .badOperand), (notInit s, .notInit), (isConsumed s, .consumed), (afterDuplex s, .hashAfterDuplex),
     (m.length != s.cfg.l, .msgLen)]
  | .perm x => [(badFT s.cfg x, .badOperand), (notInit s, .notInit)]
  | .fold w => [(badFF s.cfg w, .badOperand), (notInit s, .notInit)]
  | .capiv | .padding => [(notInit s, .notInit)]

theorem checksOf_in_order (s : State) (i : Instr) : ((checksOf s i).map Prod.snd).Sublist faultPriority := by
  cases i <;> exact List.isSublist_iff_sublist.1 rfl

/-- Every command but STATUS runs under its checks (R123). -/
theorem exec_eq_command (s : State) (hi : i ≠ .status) : ∃ act, exec i s = command i.op (checksOf s i) act s := by
  cases i with
  | status => exact absurd rfl hi
  | nop => exact ⟨_, exec_nop s⟩
  | init => exact ⟨_, exec_init s⟩
  | absorb v => exact ⟨_, exec_absorb v s⟩
  | squeeze => exact ⟨_, exec_squeeze s⟩
  | hash m => exact ⟨_, exec_hash m s⟩
  | perm x => exact ⟨_, exec_perm x s⟩
  | fold w => exact ⟨_, exec_fold w s⟩
  | capiv => exact ⟨_, exec_capiv s⟩
  | padding => exact ⟨_, exec_padding s⟩

/-- The first check that holds is the fault a command raises in a core without one. -/
theorem exec_raises (hf : s.fault = false) (h : firstFault (checksOf s i) = some code) :
    exec i s = .next (raiseFault i.op.code code s) := by
  have hi : i ≠ .status := by rintro rfl; cases h
  obtain ⟨act, hact⟩ := exec_eq_command s hi
  exact hact.trans (command_faults hf h)

/-- SQUEEZE_STEP's common end completes when RATE ≥ 1, and leaves the fault record alone (R84). -/
theorem squeezeAndRespond_completes (hr : 1 ≤ s.cfg.rate) (op : Op) (lc : Lifecycle) :
    ∃ t, squeezeAndRespond op lc s = .next t ∧ t.fault = s.fault ∧ t.fcode = s.fcode := by
  obtain ⟨u, t, hu, -⟩ := squeezeStep_cases hr
  refine ⟨_, squeezeAndRespond_some hu, ?_⟩
  obtain ⟨_, _, rfl⟩ := squeezeLoop_frame _ _ hu
  exact ⟨rfl, rfl⟩

/-- A command none of whose checks holds completes, and leaves the fault record alone. -/
theorem exec_completes (hr : s.lc ≠ .uninit → 1 ≤ s.cfg.rate) (hf : s.fault = false) (h : firstFault (checksOf s i) = none) :
    ∃ t, exec i s = .next t ∧ t.fault = s.fault ∧ t.fcode = s.fcode := by
  have hrate (hn : (notInit s, FaultCode.notInit) ∈ checksOf s i) : 1 ≤ s.cfg.rate :=
    hr (notInit_eq_false.1 (firstFault_eq_none.1 h _ hn))
  cases i with
  | status => exact ⟨_, exec_status s, rfl, rfl⟩
  | nop => exact ⟨_, (exec_nop s).trans (command_runs hf h), rfl, rfl⟩
  | init => exact ⟨_, (exec_init s).trans (command_runs hf h), rfl, rfl⟩
  | perm x => exact ⟨_, (exec_perm x s).trans (command_runs hf h), rfl, rfl⟩
  | fold w => exact ⟨_, (exec_fold w s).trans (command_runs hf h), rfl, rfl⟩
  | capiv => exact ⟨_, (exec_capiv s).trans (command_runs hf h), rfl, rfl⟩
  | padding => exact ⟨_, (exec_padding s).trans (command_runs hf h), rfl, rfl⟩
  | absorb v =>
    obtain ⟨_, _, hv⟩ := absorbStep_frame v s
    exact ⟨_, (exec_absorb v s).trans (command_runs hf h), by simp [hv], by simp [hv]⟩
  | squeeze =>
    obtain ⟨t, ht, hrecord⟩ := squeezeAndRespond_completes (hrate (by simp [checksOf])) .squeeze .duplex
    exact ⟨t, (exec_squeeze s).trans ((command_runs hf h).trans ht), hrecord⟩
  | hash m =>
    obtain ⟨_, _, _, hm⟩ := absorbAll_frame m s
    obtain ⟨t, ht, hfault, hfcode⟩ := squeezeAndRespond_completes (s := absorbAll m s)
      (by simpa using hrate (by simp [checksOf])) .hash .consumed
    exact ⟨t, (exec_hash m s).trans ((command_runs hf h).trans ht), by simp [hfault, hm], by simp [hfcode, hm]⟩

/-! ### A command's checks are the faults that apply to its frame (R119 to R122) -/

theorem not_badOperand_mem_checksOf (ho : i.operandsOk s.cfg = true) : (true, .badOperand) ∉ checksOf s i := by
  cases i with
  | absorb v => simp [checksOf, badF1_ok ho]
  | hash m => simp [checksOf, badFV_ok ho]
  | perm x => simp [checksOf, badFT_ok ho]
  | fold w => simp [checksOf, badFF_ok ho]
  | nop | status | init | squeeze | capiv | padding => simp [checksOf, initChecks]

/-- With good operands, a fault applies to a command's frame exactly when the command has a check for it and the check holds. -/
theorem faultApplies_frame_iff (ho : i.operandsOk s.cfg = true) : FaultApplies s i.frame code ↔ (true, code) ∈ checksOf s i := by
  cases code with
  | badOperand => exact iff_of_false (not_badOperand_of_operandsOk ho) (not_badOperand_mem_checksOf ho)
  | none | illegalCmd =>
    cases i <;> simp [FaultApplies, checksOf, initChecks, Instr.frame]
  | notInit | consumed | hashAfterDuplex =>
    cases i <;> simp [FaultApplies, checksOf, initChecks, Instr.frame, Instr.op, notInit, isConsumed, afterDuplex]
  | shape =>
    cases i <;> simp [FaultApplies, checksOf, initChecks, Instr.frame, Instr.op, shapeOk, imp_iff_not_or, or_assoc]
  | rfOdd | rcLen | lUnsupported =>
    cases i <;> simp [FaultApplies, checksOf, initChecks, Instr.frame, Instr.op]
  | msgLen =>
    cases i <;> simp [FaultApplies, checksOf, initChecks, Instr.frame, Instr.op, Instr.words]

/-! ### The faults a frame has before any state is looked at (R119) -/

/-- The operand words of a defined opcode that make no command have another count than the required one (R50). -/
theorem requiredCount_of_instrOf_error {o : Op} {ws : List Nat} {e : DecodeError} (c : Config) (h : instrOf o ws = .error e) :
    ∃ n, requiredCount c o = some n ∧ ws.length ≠ n := by
  cases o with
  | hash | perm | fold => simp [instrOf] at h
  | absorb => exact ⟨1, rfl, fun hl => by obtain ⟨v, rfl⟩ := List.length_eq_one_iff.1 hl; cases h⟩
  | nop | status | init | squeeze | capiv | padding =>
    exact ⟨0, rfl, fun hl => by obtain rfl := List.length_eq_zero_iff.1 hl; cases h⟩

theorem countOk_of_requiredCount {c : Config} (h : ∀ n, requiredCount c i.op = some n → i.words.length = n) :
    i.countOk c = true := by
  cases i with
  | perm | fold => simpa [Instr.countOk, Instr.words] using h _ rfl
  | nop | status | init | absorb | squeeze | hash | capiv | padding => rfl

/-- FOLD's mask is the one word after its values, when the count is right (R50). -/
theorem maskOk_of_mask_lt {c : Config} (hcount : i.countOk c = true)
    (h : i.op = .fold → ∀ k, i.words[c.t + c.rate]? = some k → k < 2 ^ c.rate) : i.maskOk c = true := by
  cases i with
  | fold w =>
    have hlen : w.length = c.t + c.rate + 1 := by simpa [Instr.countOk] using hcount
    simp only [Instr.maskOk, List.all_eq_true, decide_eq_true_eq]
    intro k hk
    obtain ⟨j, hj⟩ := List.mem_iff_getElem?.1 hk
    rw [List.getElem?_drop] at hj
    have hlt : c.t + c.rate + j < w.length := (List.getElem?_eq_some_iff.1 hj).1
    obtain rfl : j = 0 := by omega
    exact h rfl k hj
  | nop | status | init | absorb | squeeze | hash | perm | capiv | padding => rfl

/-- The operands of a command are good when BAD_OPERAND does not apply to its frame. -/
theorem operandsOk_of_not_badOperand (h : ¬FaultApplies s i.frame .badOperand) : i.operandsOk s.cfg = true := by
  simp only [FaultApplies, Instr.frame, Op.ofByte_code, Option.some.injEq, exists_eq_left', not_or, not_exists, not_and,
    not_not, Nat.not_le] at h
  obtain ⟨-, hcount, hvalues, hwidth, hmask⟩ := h
  have hcountOk : i.countOk s.cfg = true := countOk_of_requiredCount hcount
  simp only [Instr.operandsOk, Bool.and_eq_true]
  refine ⟨⟨⟨hcountOk, ?_⟩, ?_⟩, maskOk_of_mask_lt hcountOk hmask⟩
  · simpa [Instr.wordsFit] using hwidth
  · simpa [Instr.valuesCanonical, valueWords_eq] using hvalues

/-- A frame to which neither ILLEGAL_CMD nor BAD_OPERAND applies is the frame of a command with good operands. -/
theorem exists_frame_of_not_badOperand (hc : ¬FaultApplies s f .illegalCmd) (hb : ¬FaultApplies s f .badOperand) :
    ∃ i, decodeFrame f = .ok i ∧ f = i.frame ∧ i.operandsOk s.cfg = true := by
  obtain ⟨o, ho⟩ := Option.ne_none_iff_exists'.1 hc
  cases hd : decodeFrame f with
  | ok i =>
    obtain rfl := decodeFrame_ok.1 hd
    exact ⟨i, rfl, rfl, operandsOk_of_not_badOperand hb⟩
  | error e =>
    refine absurd ⟨o, ho, ?_⟩ hb
    rw [decode_op ho] at hd
    split at hd
    · exact .inr (.inl (requiredCount_of_instrOf_error s.cfg hd))
    · next hrsv => exact .inl hrsv

/-! ### A whole frame (R123, R125) -/

/-- While FAULT = 1 every frame but a well-formed STATUS is taken and refused (R125). -/
theorem step_refused (hr : s.rst = false) (ha : configAdmitted s.cfg = true) (hf : s.fault = true)
    (ht : takeFrame s.cfg s.rx = some (f, rest)) (hs : f ≠ Instr.status.frame) :
    step s = .next (refuse f.opc { s with rx := rest }) := by
  rw [step_frame hr ha ht]
  cases hd : decodeFrame f with
  | error e => simp [rejectFrame, hf]
  | ok i =>
    obtain rfl := decodeFrame_ok.1 hd
    exact exec_faulted (s := { s with rx := rest }) hf (by rintro rfl; exact hs rfl)

theorem eq_statusFrame_iff : f = Instr.status.frame ↔ f.opc = 0x01 ∧ f.rsv = 0 ∧ f.words = [] := by
  cases f
  simp [Instr.frame, Instr.op, Op.code, Instr.words]

/-- Of the faults that apply to a frame, the first in the order of R123 is raised. -/
theorem step_raises_first {pre post : List FaultCode} (hr : s.rst = false) (ha : configAdmitted s.cfg = true)
    (hf : s.fault = false) (ht : takeFrame s.cfg s.rx = some (f, rest)) (horder : faultPriority = pre ++ code :: post)
    (happ : FaultApplies s f code) (hpre : ∀ e ∈ pre, ¬FaultApplies s f e) :
    step s = .next (raiseFault f.opc code { s with rx := rest }) := by
  rcases pre with _ | ⟨e₁, _ | ⟨e₂, pre⟩⟩
  · obtain ⟨rfl, -⟩ := List.cons.inj horder
    exact step_illegalCmd hr ha hf ht happ
  · obtain ⟨-, h⟩ := List.cons.inj horder
    obtain ⟨rfl, -⟩ := List.cons.inj h
    exact step_badOperand hr ha hf ht happ
  · obtain ⟨rfl, h⟩ := List.cons.inj horder
    obtain ⟨rfl, -⟩ := List.cons.inj h
    obtain ⟨i, hd, rfl, ho⟩ := exists_frame_of_not_badOperand (hpre _ (by simp)) (hpre _ (by simp))
    rw [step_frame hr ha ht, hd]
    refine exec_raises (s := { s with rx := rest }) hf ?_
    exact firstFault_of_first_in_order (horder ▸ checksOf_in_order s i) (horder ▸ by decide)
      ((faultApplies_frame_iff ho).1 happ) fun e he => mt (faultApplies_frame_iff ho).2 (hpre e he)

/-- A frame to which no fault applies is run, and the step completes with the fault record as it was. -/
theorem step_completes (hs : Inv s) (hr : s.rst = false) (ha : configAdmitted s.cfg = true) (hf : s.fault = false)
    (ht : takeFrame s.cfg s.rx = some (f, rest)) (hno : ∀ code ∈ faultPriority, ¬FaultApplies s f code) :
    ∃ t, step s = .next t ∧ t.fault = s.fault ∧ t.fcode = s.fcode := by
  obtain ⟨i, hd, rfl, ho⟩ := exists_frame_of_not_badOperand (hno _ (by decide)) (hno _ (by decide))
  rw [step_frame hr ha ht, hd]
  refine exec_completes (s := { s with rx := rest }) (fun hl => (hs.live hl).rate_pos) hf ?_
  refine firstFault_eq_none_iff.2 fun code hc => ?_
  have hmem : code ∈ faultPriority := (checksOf_in_order s i).subset (List.mem_map_of_mem hc)
  exact hno code hmem ((faultApplies_frame_iff ho).2 hc)

/-- Settles O11: a command's checks hold exactly for the faults that apply to its frame, and stand in the order of R123; the two codes
before them are judged on the frame alone. -/
theorem firstApplicableFaultIsRaised : Obligations.FirstApplicableFaultIsRaised := by
  intro s f rest hs hr ha ht
  refine ⟨fun hf hn => step_refused hr ha hf ht (mt eq_statusFrame_iff.1 hn), fun hf => ⟨?_, fun hno => ?_⟩⟩
  · exact fun _ _ _ horder happ hpre => step_raises_first hr ha hf ht horder happ hpre
  · obtain ⟨t, hstep, hfault, hfcode⟩ := step_completes hs hr ha hf ht hno
    exact ⟨t, hstep, hfault.trans hf, hfcode⟩

end Sys2Proof.Machine
end

section
/-! SUPPORT. Taking a fault and refusing after one (R124, R125), and the faults of INIT, of the lifecycle and of HASH's length
(R120 to R122). -/

namespace Sys2Proof.Machine

variable {c : Config} {s t : State} {f : Frame} {rest : List Byte} {i : Instr} {m : List Nat}

/-! ### What a fault changes (R124, R125) -/

/-- A command that the receiver finds stands whole on the channel, with its own opcode. -/
theorem takeFrame_of_receive_command {bs : List Byte} (h : receive c bs = .command i rest) :
    ∃ f, takeFrame c bs = some (f, rest) ∧ f.opc = i.op.code := by
  unfold receive at h
  split at h
  · cases h
  · next f _ hf =>
    split at h
    · next hd =>
      cases h
      exact ⟨f, hf, by rw [decodeFrame_ok.1 hd]; rfl⟩
    · cases h

/-- A frame that the receiver rejects stands whole on the channel. -/
theorem takeFrame_of_receive_rejected {bs : List Byte} {opc : BitVec 8} {e : DecodeError}
    (h : receive c bs = .rejected opc e rest) : ∃ f, takeFrame c bs = some (f, rest) ∧ f.opc = opc := by
  unfold receive at h
  split at h
  · cases h
  · next f _ hf =>
    split at h
    · cases h
    · cases h
      exact ⟨f, hf, rfl⟩

/-- A step that records a fault raises it on the first frame of the channel. -/
theorem step_records_fault (hf : s.fault = false) (h : step s = .next t) (ht : t.fault = true) :
    ∃ f code rest, takeFrame s.cfg s.rx = some (f, rest) ∧ code ≠ .none ∧ t = raiseFault f.opc code { s with rx := rest } := by
  obtain ⟨-, rfl⟩ | ⟨-, -, ⟨-, rfl⟩ | ⟨i, rest, hc, he⟩ | ⟨opc, e, rest, hc, rfl⟩⟩ := step_next_cases h
  · simp at ht
  · simp [hf] at ht
  · obtain ⟨f, hframe, hopc⟩ := takeFrame_of_receive_command hc
    obtain ⟨hf', -, -⟩ | ⟨-, -, code, hcode, rfl⟩ | ⟨-, heff⟩ := exec_next_cases he
    · simp [hf] at hf'
    · exact ⟨f, code, rest, hframe, hcode, by rw [hopc]⟩
    · obtain ⟨-, -, -, hfault, -, -⟩ := effect_frame heff
      simp [hfault, hf] at ht
  · obtain ⟨f, hframe, rfl⟩ := takeFrame_of_receive_rejected hc
    obtain ⟨hf', -⟩ | ⟨-, hj, hcode⟩ := rejectFrame_cases (s := { s with rx := rest }) f.opc e
    · simp [hf] at hf'
    · exact ⟨f, _, rest, hframe, hcode, hj⟩

/-- Settles O12: only a fault raised on the frame taken sets FAULT. -/
theorem faultTakingChangesOnlyTheRecord : Obligations.FaultTakingChangesOnlyTheRecord := by
  intro s t hf h ht
  obtain ⟨f, code, rest, hframe, hcode, rfl⟩ := step_records_fault hf h ht
  exact ⟨f.opc, code, rest, hcode, rfl, f, hframe, rfl⟩

/-- Settles O13: the STATUS frame is the one a faulted core answers, and STATUS is run whatever FAULT is. -/
theorem faultedCoreAnswersOnlyStatus : Obligations.FaultedCoreAnswersOnlyStatus := by
  intro s f rest hr ha hf ht
  refine ⟨fun hn => step_refused hr ha hf ht (mt eq_statusFrame_iff.1 hn), fun hs => ?_⟩
  rw [step_frame hr ha ht, decodeFrame_ok.2 (eq_statusFrame_iff.2 hs)]
  exact exec_status _

/-! ### INIT's configuration checks (R120) -/

theorem shapeOk_iff : shapeOk c = true ↔ 1 ≤ c.rate ∧ c.t = c.rate + 1 ∧ c.rate ≤ 65535 ∧ c.rate ≤ c.fw := by
  simp [shapeOk, and_assoc]

/-- The fault INIT raises, by the conditions as R120 states them. -/
theorem firstFault_initChecks (c : Config) : firstFault (initChecks c) =
    if ¬(1 ≤ c.rate ∧ c.t = c.rate + 1 ∧ c.rate ≤ 65535 ∧ c.rate ≤ c.fw) then some .shape
    else if c.rf % 2 ≠ 0 then some .rfOdd
    else if c.rc.length ≠ c.rf + c.rp then some .rcLen
    else if c.lMax < c.l then some .lUnsupported
    else none := by
  simp only [initChecks, firstFault, Bool.not_eq_true', ← Bool.not_eq_true, shapeOk_iff, bne_iff_ne, decide_eq_true_eq]

/-- Settles O17: the checks in order, and the invariant of every run, which has them pass while an instance exists. -/
theorem initChecksConfigurationInOrder : Obligations.InitChecksConfigurationInOrder := by
  refine ⟨fun s hf => ?_, fun c s hs hl => ?_⟩
  · have hfirst := firstFault_initChecks s.cfg
    split_ifs at hfirst ⊢
    · exact exec_raises (i := .init) hf hfirst
    · exact exec_raises (i := .init) hf hfirst
    · exact exec_raises (i := .init) hf hfirst
    · exact exec_init_runs hf hfirst
    · exact exec_raises (i := .init) hf hfirst
  · have hc : s.cfg = c := hs.cfg_eq
    exact hc ▸ initPasses_iff.1 (hs.inv.live hl).checked

/-! ### The lifecycle faults (R121) -/

/-- INIT's checks raise no lifecycle fault. -/
theorem not_lifecycle_of_initChecks {code : FaultCode} (h : firstFault (initChecks c) = some code) :
    code ∉ [FaultCode.notInit, .consumed, .hashAfterDuplex] := by
  have hcode : code ∈ [FaultCode.shape, .rfOdd, .rcLen, .lUnsupported] :=
    List.mem_map_of_mem (f := Prod.snd) (mem_of_firstFault h)
  exact (by decide : ∀ e ∈ [FaultCode.shape, .rfOdd, .rcLen, .lUnsupported], e ∉ [FaultCode.notInit, .consumed, .hashAfterDuplex])
    code hcode

/-- NOP, STATUS and INIT complete in every lifecycle state and leave none of its fault codes. -/
theorem exec_control_fcode (hf : s.fault = false) (hc : s.fcode = .none) (hi : i.op ∈ [Op.nop, .status, .init]) :
    ∃ t, exec i s = .next t ∧ t.fcode ∉ [FaultCode.notInit, .consumed, .hashAfterDuplex] := by
  cases i with
  | nop => exact ⟨_, (exec_nop s).trans (command_runs hf rfl), by simp [hc]⟩
  | status => exact ⟨_, exec_status s, by simp [hc]⟩
  | init =>
    cases h : firstFault (initChecks s.cfg) with
    | none => exact ⟨_, exec_init_runs hf h, by simp [hc]⟩
    | some code => exact ⟨_, exec_raises (i := .init) hf h, not_lifecycle_of_initChecks h⟩
  | absorb | squeeze | hash | perm | fold | capiv | padding => simp [Instr.op] at hi

/-- Settles O15: each lifecycle fault by the rule of its code, and the control commands, which have no lifecycle check. -/
theorem lifecycleFaultsAreRaised : Obligations.LifecycleFaultsAreRaised := by
  intro s i hf ho
  refine ⟨fun hl hi => exec_notInit hf ho hl hi, fun hl hi => exec_consumed hf ho hl hi, fun hl hi => ?_,
    fun hi hc => exec_control_fcode hf hc hi⟩
  cases i with
  | hash m => exact exec_hashAfterDuplex hf ho hl
  | nop | status | init | absorb | squeeze | perm | fold | capiv | padding => cases hi

/-! ### HASH's length check (R122) -/

theorem exec_hash_msgLen (hf : s.fault = false) (hl : s.lc = .ready) (ho : (Instr.hash m).operandsOk s.cfg = true)
    (hm : m.length ≠ s.cfg.l) : exec (.hash m) s = .next (raiseFault Op.hash.code .msgLen s) :=
  exec_raises hf (by simp [checksOf, firstFault, badFV_ok ho, notInit, isConsumed, afterDuplex, hl, hm])

/-- Settles O16: in READY no check before the length check holds. -/
theorem wrongMessageLengthFaultsAtEntry : Obligations.WrongMessageLengthFaultsAtEntry :=
  fun _ _ hf hl ho hm => exec_hash_msgLen hf hl ho hm

end Sys2Proof.Machine
end

section
/-! SUPPORT. The channel and the decoder (R39 to R41, R48 to R54): the bytes of a word, the frame that an encoded command is and the
one frame a command can come from, when a frame has arrived, and what a step then does. -/

namespace Sys2Proof.Machine

variable {c : Config} {s : State} {i : Instr} {bs rest : List Byte}

/-! ### Words (R39) -/

/-- A word that n bytes can hold comes back from its n bytes. -/
theorem wordOfBytes_bytesOfWord_of_lt {n w : Nat} (o : ByteOrder) (h : w < 256 ^ n) :
    wordOfBytes o (bytesOfWord o n w) = w := by
  rw [wordOfBytes_bytesOfWord, Nat.mod_eq_of_lt h]

/-- Settles O1: each clause is the rule of ELEM_BYTES or of a word's bytes. -/
theorem wordTravelsAsItsBytes : Obligations.WordTravelsAsItsBytes := by
  intro c w hw
  exact ⟨elemBytes_le_iff c, bytesOfWord_length _ _ _, leBytes_getElem? _ _, rfl,
    fun o => wordOfBytes_bytesOfWord_of_lt o (lt_elemBytes hw)⟩

/-! ### Headers (R40, R49) -/

@[simp] theorem bytesOfHeader_length (o : ByteOrder) (h : Header) : (bytesOfHeader o h).length = 4 :=
  bytesOfWord_length _ _ _

/-- The receiver reads a header back from its 4 bytes. -/
theorem wordOfBytes_bytesOfHeader (o : ByteOrder) (h : Header) : wordOfBytes o (bytesOfHeader o h) = h.toNat :=
  wordOfBytes_bytesOfWord_of_lt o h.isLt

/-- Four bytes are the bytes of the header they carry. -/
theorem bytesOfHeader_wordOfBytes (o : ByteOrder) (hb : bs.length = 4) :
    bytesOfHeader o (BitVec.ofNat 32 (wordOfBytes o bs)) = bs := by
  have hlt : wordOfBytes o bs < 2 ^ 32 := by simpa [hb] using wordOfBytes_lt o bs
  rw [bytesOfHeader, BitVec.toNat_ofNat, Nat.mod_eq_of_lt hlt, ← hb, bytesOfWord_wordOfBytes]

/-! ### The round trip (R48, R49, R61) -/

/-- The receiver reads a command exactly when the frame on the channel is the command's own. -/
theorem receive_eq_command : receive c bs = .command i rest ↔ takeFrame c bs = some (i.frame, rest) := by
  constructor
  · intro h
    unfold receive at h
    split at h
    · cases h
    · next f r hf =>
      split at h
      · next hd =>
        cases h
        rw [hf, decodeFrame_ok.1 hd]
      · cases h
  · intro h
    rw [receive, h]
    simp [decodeFrame_ok.2 rfl]

/-- A sendable command's words fit the bytes they travel in, and its count fits the header. -/
theorem sendable_iff : i.sendable c = true ↔ i.words.length ≤ 65535 ∧ ∀ w ∈ i.words, w < 2 ^ c.fw := by
  simp [Instr.sendable, Instr.countFits, Instr.wordsFit]

/-- The encoded command is its frame on the channel, whatever follows. -/
theorem takeFrame_encode (h : i.sendable c = true) : takeFrame c (encode c i ++ rest) = some (i.frame, rest) := by
  obtain ⟨hcount, hwords⟩ := sendable_iff.1 h
  have hhead : takeBytes 4 (encode c i ++ rest) = some (bytesOfHeader c.byteOrder i.header, bytesOfWords c i.words ++ rest) := by
    simpa [encode] using takeBytes_append (bytesOfHeader c.byteOrder i.header) (bytesOfWords c i.words ++ rest)
  have hbody : takeWords c i.words.length (bytesOfWords c i.words ++ rest) = some (i.words, rest) :=
    takeWords_bytesOfWords c i.words rest fun w hw => lt_elemBytes (hwords w hw)
  have hn : Header.count i.header = i.words.length := by
    rw [Instr.header, headerOf_count, Nat.mod_eq_of_lt (Nat.lt_succ_of_le hcount)]
  rw [takeFrame, hhead]
  simp only [wordOfBytes_bytesOfHeader, BitVec.ofNat_toNat, BitVec.setWidth_eq, hn, hbody, Option.map_some]
  rw [Instr.header, headerOf_opc, headerOf_rsv, Instr.frame]

/-- A frame with a command's fields on the channel is the encoded command. -/
theorem encode_of_takeFrame (h : takeFrame c bs = some (i.frame, rest)) : bs = encode c i ++ rest := by
  obtain ⟨hlen, hd, hhd, hopc, hrsv, hcount, hwords⟩ := takeFrame_some h
  have hheader : i.header = hd := by
    rw [← headerOf_fields hd i.op hopc hrsv.symm, ← hcount]
    rfl
  have hhead : bytesOfHeader c.byteOrder i.header = bs.take 4 := by
    rw [hheader, hhd, bytesOfHeader_wordOfBytes _ (List.length_take_of_le hlen)]
  have hbody : bs.drop 4 = bytesOfWords c i.words ++ rest := bytesOfWords_of_takeWords c _ _ hwords
  rw [encode, hhead, List.append_assoc, ← hbody, List.take_append_drop]

/-- Settles O2: the encoded command is a frame, and the frame decodes to the command. -/
theorem encodedCommandIsReceived : Obligations.EncodedCommandIsReceived :=
  fun _ _ _ h => receive_eq_command.2 (takeFrame_encode h)

/-- Settles O3: a command decodes from its own frame only, whose bytes are the encoder's. -/
theorem receivedCommandHasOneSpelling : Obligations.ReceivedCommandHasOneSpelling :=
  fun _ _ _ _ h => encode_of_takeFrame (receive_eq_command.1 h)

/-! ### When a frame has arrived (R41, R54) -/

/-- The count N in the header at the head of the channel. -/
def announced (c : Config) (bs : List Byte) : Nat :=
  Header.count (BitVec.ofNat 32 (wordOfBytes c.byteOrder (bs.take 4)))

theorem takeFrame_eq_none_iff :
    takeFrame c bs = none ↔ bs.length < 4 ∨ bs.length < 4 + announced c bs * c.elemBytes := by
  rw [takeFrame_eq]
  split
  · rw [Option.map_eq_none_iff, (takeWords_spec _ _ _).1, List.length_drop, announced]
    omega
  · exact iff_of_true rfl (.inl (by omega))

/-- Settles O4: a frame is missing while its header or its words are, and leaves what follows its words. -/
theorem frameLengthFollowsFromHeader : Obligations.FrameLengthFollowsFromHeader := by
  intro c bs
  refine ⟨fun h => takeFrame_eq_none_iff.2 (.inl h), fun h => ⟨?_, fun f rest hf => ?_⟩⟩
  · exact takeFrame_eq_none_iff.trans (or_iff_right (by omega))
  · obtain ⟨-, hd, rfl, -, -, hcount, hwords⟩ := takeFrame_some hf
    obtain ⟨-, hrest⟩ := (takeWords_spec c _ _).2 _ _ hwords
    exact ⟨hcount, by rw [hrest, List.drop_drop]⟩

theorem receive_eq_waiting (h : takeFrame c bs = none) : receive c bs = .waiting := by simp [receive, h]

/-! ### A step by what the receiver finds (R41, R43, R54) -/

theorem step_of_waiting (hr : s.rst = false) (ha : configAdmitted s.cfg = true) (h : receive s.cfg s.rx = .waiting) :
    step s = .next s := by simp [step, hr, ha, h]

theorem step_of_command (hr : s.rst = false) (ha : configAdmitted s.cfg = true)
    (h : receive s.cfg s.rx = .command i rest) : step s = exec i { s with rx := rest } := by simp [step, hr, ha, h]

theorem step_of_rejected {opc : BitVec 8} {e : DecodeError} (hr : s.rst = false) (ha : configAdmitted s.cfg = true)
    (h : receive s.cfg s.rx = .rejected opc e rest) :
    step s = .next (rejectFrame opc e { s with rx := rest }) := by simp [step, hr, ha, h]

theorem step_of_reset (hr : s.rst = true) : step s = .next (applyReset s) := by simp [step, hr]

/-- Settles O5: while no frame has arrived the receiver finds nothing, and the core waits. -/
theorem incompleteFrameLeavesCoreWaiting : Obligations.IncompleteFrameLeavesCoreWaiting :=
  fun _ hr ha h => step_of_waiting hr ha (receive_eq_waiting (takeFrame_eq_none_iff.2 h))

/-- Settles O6: the two frames a step can take, by what the receiver makes of them. -/
theorem stepRunsReceivedCommand : Obligations.StepRunsReceivedCommand :=
  fun _ _ hr ha => ⟨fun _ h => step_of_command hr ha h, fun _ _ h => step_of_rejected hr ha h⟩

/-- Settles O7: the words are written out, and the decoder runs on each. -/
theorem writtenHeadersDecode : Obligations.WrittenHeadersDecode := by
  unfold Obligations.WrittenHeadersDecode
  decide

end Sys2Proof.Machine
end

section
/-! SUPPORT. Responses on the transport (R39, R40, R58): the header's fields, and the bytes of a frame read back. -/

namespace Sys2Proof.Machine

variable {c : Config} {r : Response}

/-! ### The response header (R58, R118) -/

/-- The response header as a number: each field times the weight of its lowest bit. -/
theorem responseHeader_toNat (r : Response) : r.header.toNat =
    r.count.toNat * 2 ^ 16 + r.fcode.code.toNat * 2 ^ 12 + r.st.code.toNat * 2 ^ 8 + r.opc.toNat := by
  change BitVec.toNat (w := 16 + 4 + 2 + 2 + 8) (r.count ++ r.fcode.code ++ 0#2 ++ r.st.code ++ r.opc) = _
  simp only [toNat_append_eq, BitVec.toNat_zero]
  ring

/-- The fields of the response header, from bit 0 up. -/
theorem responseHeader_fields (r : Response) :
    r.header.extractLsb' 0 8 = r.opc ∧ r.header.extractLsb' 8 2 = r.st.code ∧ r.header.extractLsb' 10 2 = 0#2 ∧
    r.header.extractLsb' 12 4 = r.fcode.code ∧ r.header.extractLsb' 16 16 = r.count := by
  simp only [← BitVec.toNat_inj, BitVec.extractLsb'_toNat, Nat.shiftRight_eq_div_pow, responseHeader_toNat, BitVec.toNat_zero]
  omega

theorem count_toNat (h : r.words.length ≤ 65535) : r.count.toNat = r.words.length := by
  rw [Response.count, if_pos h, BitVec.toNat_ofNat, Nat.mod_eq_of_lt (Nat.lt_succ_of_le h)]

/-- Settles O51: `responseHeader_fields`, with the codes and the count as numbers. -/
theorem responseHeaderLayout : Obligations.ResponseHeaderLayout := by
  intro r h
  obtain ⟨hopc, hst, hzero, hfcode, hcount⟩ := responseHeader_fields r
  refine ⟨hopc, ?_, hzero, ?_, ?_⟩
  · rw [hst]
    cases r.st <;> rfl
  · rw [hfcode, faultCode_code_toNat]
  · rw [hcount, count_toNat h]

/-! ### The bytes of a response (R39, R40) -/

/-- The length of a result word of a response on the transport. -/
def Response.wordLength (c : Config) (r : Response) : Nat := if r.opc = Op.status.code then 4 else c.elemBytes

theorem wordBytes_eq (c : Config) (r : Response) (w : Nat) :
    r.wordBytes c w = bytesOfWord c.byteOrder (r.wordLength c) w := by
  unfold Response.wordBytes Response.wordLength
  split <;> rfl

@[simp] theorem wordBytes_length (c : Config) (r : Response) (w : Nat) : (r.wordBytes c w).length = r.wordLength c := by
  rw [wordBytes_eq, bytesOfWord_length]

/-- Groups of n elements laid out one after another: group k stands at place k * n. -/
theorem flatMap_group {α β : Type} {f : α → List β} {n : Nat} (hf : ∀ a, (f a).length = n) {xs : List α} {k : Nat} {a : α}
    (h : xs[k]? = some a) : ((xs.flatMap f).drop (k * n)).take n = f a := by
  induction xs generalizing k with
  | nil => simp at h
  | cons x xs ih =>
    rw [List.flatMap_cons]
    cases k with
    | zero =>
      obtain rfl : x = a := by simpa using h
      rw [Nat.zero_mul, List.drop_zero, List.take_left' (hf x)]
    | succ k =>
      rw [Nat.succ_mul, Nat.add_comm, ← List.drop_drop, List.drop_left' (hf x)]
      exact ih (by simpa using h)

theorem responseBytes_length (c : Config) (r : Response) :
    (r.bytes c).length = 4 + r.words.length * r.wordLength c := by
  simp [Response.bytes, List.length_flatMap]

/-- The first 4 bytes are the header's. -/
theorem take_responseBytes (c : Config) (r : Response) : (r.bytes c).take 4 = bytesOfHeader c.byteOrder r.header :=
  List.take_left' (bytesOfHeader_length _ _)

/-- Group k of the bytes after the header is word k's. -/
theorem responseBytes_group {k w : Nat} (h : r.words[k]? = some w) :
    ((r.bytes c).drop (4 + k * r.wordLength c)).take (r.wordLength c) = bytesOfWord c.byteOrder (r.wordLength c) w := by
  rw [← List.drop_drop, Response.bytes, List.drop_left' (bytesOfHeader_length _ _), flatMap_group (wordBytes_length c r) h,
    wordBytes_eq]

/-- Settles O53: the header and each word are read back from their own bytes. -/
theorem responseTravelsAsItsBytes : Obligations.ResponseTravelsAsItsBytes := by
  intro c r n
  refine ⟨responseBytes_length c r, ?_, fun k w hk hw => ?_⟩
  · rw [take_responseBytes, wordOfBytes_bytesOfHeader]
  · exact (congrArg _ (responseBytes_group hk)).trans (wordOfBytes_bytesOfWord_of_lt _ hw)

end Sys2Proof.Machine
end

section
/-! SUPPORT. The commands that leave the sponge as it is or build it anew (R75, R100 to R102, R106, R110): what each answers when it
runs, and the datapath and domain facts their answers rest on (R64 to R70, R95, R96, R98). -/

namespace Sys2Proof.Machine

variable {c : Config} {s : State} {lanes : List Nat} {b : RateBuffer} {i : Nat}

/-! ### NOP, INIT, PERM and CAPIV -/

theorem exec_nop_runs (hf : s.fault = false) : exec .nop s = .next (respondOk .nop [] s) :=
  (exec_nop s).trans (command_runs hf rfl)

/-- Settles O21: NOP has no checks. -/
theorem nopChangesNothing : Obligations.NopChangesNothing := fun _ hf => exec_nop_runs hf

/-- Settles O23: each INIT passes the same checks and writes what CFG alone determines. -/
theorem initBuildsFreshInstance : Obligations.InitBuildsFreshInstance := by
  intro s hf hc
  refine ⟨_, exec_init_runs hf hc, rfl, exec_init_runs (s := respondOk .init [] (newInstance s)) hf hc,
    fun lanes buf mode lc => ?_⟩
  rw [exec_init_runs hf hc]
  exact exec_init_runs (s := { s with lanes := lanes, buf := buf, mode := mode, lc := lc }) hf hc

theorem exec_perm_runs {x : List Nat} (hf : s.fault = false) (hl : s.lc ≠ .uninit) (hx : badFT s.cfg x = false) :
    exec (.perm x) s = .next (respondOk .perm (permute s.cfg x) s) :=
  (exec_perm x s).trans (command_runs hf (by simp [firstFault, hx, notInit_eq_false.2 hl]))

/-- Settles O33: T canonical words pass PERM's check. -/
theorem permReturnsThePermutation : Obligations.PermReturnsThePermutation := by
  intro s x hf hl hlen hx
  refine exec_perm_runs hf hl ?_
  simp only [badFT, hlen, bne_self_eq_false, Bool.false_or, Bool.not_eq_false', valuesOk_iff]
  exact fun w hw => (hx w hw).symm

/-- Settles O35: CAPIV's answer is the capacity value by its formula. -/
theorem capivReturnsCapacityValue : Obligations.CapivReturnsCapacityValue :=
  fun s hf hl => (exec_capiv s).trans (command_runs hf (by simp [firstFault, notInit_eq_false.2 hl]))

/-! ### PADDING (R95, R101) -/

theorem pad_length : (pad c).length = c.rate := by simp [pad]

theorem slot_pad (hi : i < c.rate) : slot (pad c) i = if i < c.l then none else some 0 := by
  rw [pad, slot_map_range, if_pos hi]

/-- Bit i of PADDING's mask: slot i of the buffer is padding. -/
theorem bufferMask_pad_testBit (c : Config) (i : Nat) :
    (bufferMask (pad c)).testBit i = (decide (c.l ≤ i) && decide (i < c.rate)) := by
  rw [bufferMask_testBit]
  by_cases hi : i < c.rate
  · by_cases hl : i < c.l <;> simp [slot_pad, hi, hl, Nat.le_of_not_lt]
  · simp [slot_none_of_le (b := pad c) (i := i) (by rw [pad_length]; omega), hi]

/-- The bits from k up to n, as a number. -/
theorem testBit_two_pow_sub_two_pow {k n : Nat} (h : k ≤ n) (i : Nat) :
    (2 ^ n - 2 ^ k).testBit i = (decide (k ≤ i) && decide (i < n)) := by
  have hsplit : 2 ^ n - 2 ^ k = 2 ^ k * (2 ^ (n - k) - 1) := by
    rw [Nat.mul_sub, ← pow_add, Nat.add_sub_cancel' h, Nat.mul_one]
  rw [hsplit, Nat.testBit_two_pow_mul, Nat.testBit_two_pow_sub_one]
  by_cases hi : k ≤ i
  · simp [hi]
    omega
  · simp [hi]

/-- PADDING's mask has the bits from min(L, RATE) up to RATE. -/
theorem bufferMask_pad (c : Config) : bufferMask (pad c) = 2 ^ c.rate - 2 ^ min c.l c.rate := by
  refine Nat.eq_of_testBit_eq fun i => ?_
  rw [bufferMask_pad_testBit, testBit_two_pow_sub_two_pow (Nat.min_le_right _ _)]
  by_cases hi : i < c.rate <;> simp [hi, Nat.not_le.2]

theorem exec_padding_runs (hf : s.fault = false) (hl : s.lc ≠ .uninit) : exec .padding s =
    .next (respondOk .padding (List.replicate s.cfg.rate 0 ++ [bufferMask (pad s.cfg)]) s) := by
  rw [← bufferValues_pad]
  exact (exec_padding s).trans (command_runs hf (by simp [firstFault, notInit_eq_false.2 hl]))

/-- Settles O36: the value words are zeros, and the mask's bits are those of a difference of two powers. -/
theorem paddingReturnsZerosAndMask : Obligations.PaddingReturnsZerosAndMask := by
  intro s hf hl
  refine ⟨_, exec_padding_runs hf hl, bufferMask_pad_testBit s.cfg, ?_⟩
  rw [bufferMask_pad, Nat.sub_add_cancel (Nat.pow_le_pow_right (by decide) (Nat.min_le_right _ _))]

/-! ### The fold with padding loaded (R98) -/

theorem lane_lt_of_lt (h : LanesOk c lanes) (hi : i < c.t) : lane lanes i < c.p := by
  obtain ⟨hlen, hcan⟩ := h
  rw [lane_eq lanes i (hlen ▸ hi)]
  exact hcan _ (List.getElem_mem _)

/-- A buffer with each unset slot taken from another one. -/
theorem slot_zipWith_orElse {b' : RateBuffer} (hi : i < b.length) (hi' : i < b'.length) :
    slot (List.zipWith (fun x y => x.orElse fun _ => y) b b') i = (slot b i).orElse fun _ => slot b' i := by
  refine slot_of_getElem? ?_
  rw [List.getElem?_zipWith, getElem?_of_slot hi, getElem?_of_slot hi']

/-- Settles O42: a set slot keeps its value, and adding 0 keeps a canonical lane. -/
theorem paddingChangesNoFold : Obligations.PaddingChangesNoFold := by
  intro c lanes b hs hb
  refine fold_congr fun i hi => ?_
  by_cases hr : i < c.rate
  · have hslot := slot_zipWith_orElse (b := b) (b' := pad c) (hb ▸ hr) (pad_length ▸ hr)
    cases hbi : slot b i with
    | some u =>
      rw [hbi] at hslot
      rw [foldLane_of_slot_some hr hslot, foldLane_of_slot_some hr hbi]
    | none =>
      rw [hbi, slot_pad hr] at hslot
      rw [foldLane_of_slot_none hbi]
      by_cases hl : i < c.l
      · exact foldLane_of_slot_none (hslot.trans (if_pos hl))
      · rw [foldLane_of_slot_some hr (hslot.trans (if_neg hl)), addF, Nat.add_zero, Nat.mod_eq_of_lt (lane_lt_of_lt hs hi)]
  · rw [foldLane_of_rate_le (Nat.le_of_not_lt hr), foldLane_of_rate_le (Nat.le_of_not_lt hr)]

/-! ### FOLD (R50, R52, R102) -/

section FoldOperands

variable {x v : List Nat} {k : Nat} (hx : x.length = c.t) (hv : v.length = c.rate)

include hx

theorem foldState_operands : foldState c (x ++ v ++ [k]) = x := by
  rw [foldState, List.append_assoc, List.take_left' hx]

include hv

theorem foldValues_operands : foldValues c (x ++ v ++ [k]) = v := by
  rw [foldValues, List.append_assoc, List.drop_left' hx, List.take_left' hv]

theorem foldMask_operands : foldMask c (x ++ v ++ [k]) = k := by
  have hlen : (x ++ v).length = c.t + c.rate := by rw [List.length_append, hx, hv]
  rw [foldMask, lane_append_right hlen.le, hlen, Nat.sub_self]
  rfl

theorem badFF_operands (hw : ∀ w ∈ x ++ v, w < c.p ∧ w < 2 ^ c.fw) (hk : k < 2 ^ c.rate) (hr : c.rate ≤ c.fw) :
    badFF c (x ++ v ++ [k]) = false := by
  have hlen : (x ++ v).length = c.t + c.rate := by rw [List.length_append, hx, hv]
  have hmask : k < 2 ^ c.fw := hk.trans_le (Nat.pow_le_pow_right (by decide) hr)
  have hvalues : valuesOk c (x ++ v) = true := valuesOk_iff.2 fun w h => (hw w h).symm
  rw [badFF, List.take_left' hlen, hvalues, foldMask_operands hx hv, List.length_append, hlen]
  simp [maskOk, hmask, hk]

end FoldOperands

theorem exec_fold_runs {w : List Nat} (hf : s.fault = false) (hl : s.lc ≠ .uninit) (hw : badFF s.cfg w = false) :
    exec (.fold w) s = .next (respondOk .fold
      (fold s.cfg (foldState s.cfg w) (maskedBuffer s.cfg (foldValues s.cfg w) (foldMask s.cfg w))) s) :=
  (exec_fold w s).trans (command_runs hf (by simp [firstFault, hw, notInit_eq_false.2 hl]))

/-- Lane i of a fold under a mask (R52). -/
theorem foldLane_maskedBuffer {v : List Nat} {k : Nat} (hi : i < c.rate) : foldLane c lanes (maskedBuffer c v k) i =
    if k.testBit i then (lane lanes i + lane v i) % c.p else lane lanes i := by
  have hslot : slot (maskedBuffer c v k) i = if k.testBit i then some (lane v i) else none := by
    rw [maskedBuffer, slot_map_range, if_pos hi]
  by_cases hk : k.testBit i
  · rw [foldLane_of_slot_some hi (hslot.trans (if_pos hk)), if_pos hk, addF]
  · rw [foldLane_of_slot_none (hslot.trans (if_neg hk)), if_neg hk]

/-- Settles O34: the operands are x, b and k, and the fold of x acts lane by lane. -/
theorem foldAddsMaskedValues : Obligations.FoldAddsMaskedValues := by
  intro s x v k hf hl hx hv ht hw hk hr
  have hrun := exec_fold_runs hf hl (badFF_operands hx hv hw hk hr)
  rw [foldState_operands hx, foldValues_operands hx hv, foldMask_operands hx hv] at hrun
  refine ⟨_, hrun, fold_length, fold_getElem?_of_foldLane_eq hx (foldLane_of_rate_le le_rfl), fun i xi vi hxi hvi => ?_⟩
  obtain ⟨hi, -⟩ := List.getElem?_eq_some_iff.1 hvi
  have hi : i < s.cfg.rate := hv ▸ hi
  rw [fold_getElem? (by omega), foldLane_maskedBuffer hi, lane_of_getElem? hxi, lane_of_getElem? hvi]

/-! ### Rounds (R64 to R70) -/

theorem lane_arc (r : Nat) (hi : i < c.t) : lane (arc c lanes r) i = (lane lanes i + rcAt c r i) % c.p :=
  lane_map_range _ hi

theorem lane_sboxFull (hi : i < c.t) : lane (sboxFull c lanes) i = sbox c (lane lanes i) := lane_map_range _ hi

theorem lane_sboxPartial (hi : i < c.t) :
    lane (sboxPartial c lanes) i = if i = 0 then sbox c (lane lanes i) else lane lanes i :=
  lane_map_range (fun i => if i = 0 then sbox c (lane lanes i) else lane lanes i) hi

theorem fullRound_getElem? (r : Nat) (hi : i < c.t) : (fullRound c lanes r)[i]? =
    some ((∑ j ∈ Finset.range c.t, mdsAt c i j * sbox c ((lane lanes j + rcAt c r j) % c.p)) % c.p) := by
  rw [fullRound, mdsMix_lane hi]
  congr 2
  refine Finset.sum_congr rfl fun j hj => ?_
  have hj : j < c.t := Finset.mem_range.1 hj
  rw [lane_sboxFull hj, lane_arc r hj]

theorem partialRound_getElem? (r : Nat) (hi : i < c.t) : (partialRound c lanes r)[i]? =
    some ((∑ j ∈ Finset.range c.t, mdsAt c i j *
      (if j = 0 then sbox c ((lane lanes j + rcAt c r j) % c.p) else (lane lanes j + rcAt c r j) % c.p)) % c.p) := by
  rw [partialRound, mdsMix_lane hi]
  congr 2
  refine Finset.sum_congr rfl fun j hj => ?_
  have hj : j < c.t := Finset.mem_range.1 hj
  rw [lane_sboxPartial hj, lane_arc r hj]

theorem sbox_power {alpha : Nat} (h : c.sbox = .power alpha) (x : Nat) : sbox c x = x ^ alpha % c.p := by
  simp [sbox, h, powF]

theorem sbox_table {values : List Nat} (h : c.sbox = .table values) (x : Nat) : sbox c x = lane values x := by
  simp [sbox, h]

/-- Settles O38: the MDS layer is the matrix sum over the lanes that ARC and the S-box layer leave. -/
theorem roundLanesAreTheMatrixSum : Obligations.RoundLanesAreTheMatrixSum := by
  refine ⟨fun c s r => ⟨mdsMix_length, mdsMix_length, fun i hi => ⟨fullRound_getElem? r hi, partialRound_getElem? r hi⟩⟩,
    fun c alpha x h => ⟨sbox_power h x, fun hz hp => ?_⟩, fun c values x y h hy => ?_⟩
  · rw [sbox_power h, hz, pow_zero, Nat.mod_eq_of_lt hp]
  · rw [sbox_table h, lane_of_getElem? hy]

end Sys2Proof.Machine
end

section
/-! SUPPORT. What the core does before an instance exists and in every run (R25, R32, R33, R117, R131): reset, what STATE, BUF and
MODE can do while LC = UNINIT, the invariant along a run, and that every step ends. -/

namespace Sys2Proof.Machine

variable {s t : State} {i : Instr} {checks : List (Bool × FaultCode)}

/-! ### Reset (R131) -/

/-- Settles O18: a step with the signal raised is the reset, whose fields are its definition's. -/
theorem resetSignalClearsControlState : Obligations.ResetSignalClearsControlState :=
  fun s hr => ⟨applyReset s, step_of_reset hr, rfl, rfl, rfl, rfl, rfl, rfl, rfl⟩

/-! ### STATE, BUF and MODE while LC = UNINIT (R33) -/

/-- The state with other values in STATE, BUF and MODE. -/
def State.withSponge (lanes : List Nat) (buf : RateBuffer) (mode : Mode) (s : State) : State :=
  { s with lanes := lanes, buf := buf, mode := mode }

/-- The run that began with other values in STATE, BUF and MODE ends in t' where the first ends in t: the two agree on everything else,
and on those too once an instance exists. -/
def UnobservedIn (lanes : List Nat) (buf : RateBuffer) (mode : Mode) (t t' : State) : Prop :=
  (t' = t ∨ t' = t.withSponge lanes buf mode) ∧ (t.lc ≠ .uninit → t' = t)

variable {lanes : List Nat} {buf : RateBuffer} {mode : Mode}

theorem UnobservedIn.refl (t : State) : UnobservedIn lanes buf mode t t := ⟨.inl rfl, fun _ => rfl⟩

theorem UnobservedIn.of_uninit (h : t.lc = .uninit) : UnobservedIn lanes buf mode t (t.withSponge lanes buf mode) :=
  ⟨.inr rfl, fun hl => absurd h hl⟩

/-- No command's checks read STATE, BUF or MODE. -/
theorem checksOf_withSponge (s : State) (i : Instr) : checksOf (s.withSponge lanes buf mode) i = checksOf s i := by
  cases i <;> rfl

/-- Without an instance only NOP, STATUS and INIT pass their checks (R121). -/
theorem checks_pass_of_uninit (hl : s.lc = .uninit) (h : firstFault (checksOf s i) = none) :
    i = .nop ∨ i = .status ∨ i = .init := by
  rw [firstFault_eq_none] at h
  cases i <;> simp_all [checksOf, notInit]

/-- STATUS shows neither NSET nor MODE while LC = UNINIT (R60). -/
theorem statusWord_withSponge (hl : s.lc = .uninit) : statusWord (s.withSponge lanes buf mode) = statusWord s := by
  simp [statusWord, nset, modeBit, State.withSponge, hl]

theorem exec_status_withSponge (hl : s.lc = .uninit) : exec .status (s.withSponge lanes buf mode) =
    .next ((respondOk .status [(statusWord s).toNat] s).withSponge lanes buf mode) := by
  rw [exec_status, statusWord_withSponge hl]
  rfl

/-- Without an instance no command's outcome shows what STATE, BUF and MODE hold: INIT overwrites them, and every other command is
refused, faults or answers with them left as they were. -/
theorem exec_unobserved (hl : s.lc = .uninit) (i : Instr) :
    ∃ t t', exec i s = .next t ∧ exec i (s.withSponge lanes buf mode) = .next t' ∧ UnobservedIn lanes buf mode t t' := by
  by_cases hi : i = .status
  · subst hi
    exact ⟨_, _, exec_status s, exec_status_withSponge hl, .of_uninit hl⟩
  cases hf : s.fault with
  | true => exact ⟨_, _, exec_faulted hf hi, exec_faulted hf hi, .of_uninit hl⟩
  | false =>
    cases hc : firstFault (checksOf s i) with
    | some code =>
      have hc' : firstFault (checksOf (s.withSponge lanes buf mode) i) = some code := by rw [checksOf_withSponge, hc]
      exact ⟨_, _, exec_raises hf hc, exec_raises hf hc', .of_uninit hl⟩
    | none =>
      obtain rfl | rfl | rfl := checks_pass_of_uninit hl hc
      · exact ⟨_, _, exec_nop_runs hf, exec_nop_runs hf, .of_uninit hl⟩
      · exact absurd rfl hi
      · exact ⟨_, _, exec_init_runs hf hc, exec_init_runs hf hc, .refl _⟩

theorem rejectFrame_withSponge (opc : BitVec 8) (e : DecodeError) (s : State) :
    rejectFrame opc e (s.withSponge lanes buf mode) = (rejectFrame opc e s).withSponge lanes buf mode := by
  cases hf : s.fault <;> simp [rejectFrame, hf, State.withSponge, refuse, raiseFault, respond]

@[simp] theorem rejectFrame_lc (opc : BitVec 8) (e : DecodeError) (s : State) : (rejectFrame opc e s).lc = s.lc := by
  cases hf : s.fault <;> simp [rejectFrame, hf]

/-- Settles O19: a reset overwrites the three registers, a wait and a rejected frame leave them, and a command does either. -/
theorem unspecifiedResetValuesNeverReachAResult : Obligations.UnspecifiedResetValuesNeverReachAResult := by
  intro s t lanes buf mode hl h
  obtain ⟨hr, rfl⟩ | ⟨hr, ha, ⟨hw, rfl⟩ | ⟨i, rest, hc, he⟩ | ⟨opc, e, rest, hj, rfl⟩⟩ := step_next_cases h
  · exact ⟨_, step_of_reset hr, UnobservedIn.refl _⟩
  · exact ⟨_, step_of_waiting hr ha hw, UnobservedIn.of_uninit hl⟩
  · rw [step_of_command (s := { s with lanes := lanes, buf := buf, mode := mode }) hr ha hc]
    obtain ⟨u, t', hu, ht', hun⟩ := exec_unobserved (s := { s with rx := rest }) hl i
    obtain rfl : u = t := Host.Outcome.next.inj (hu.symm.trans he)
    exact ⟨t', ht', hun⟩
  · rw [step_of_rejected (s := { s with lanes := lanes, buf := buf, mode := mode }) hr ha hj]
    exact ⟨_, congrArg _ (rejectFrame_withSponge opc e { s with rx := rest }), UnobservedIn.of_uninit (by simpa using hl)⟩

/-! ### The invariant and CFG along a run (R17, R19, R25) -/

/-- Settles O54: without an instance the invariant asks for the fault record only. -/
theorem resetMeetsInvariant : Obligations.ResetMeetsInvariant := resetWith_inv

/-- Settles O55: each thing a step can do keeps the invariant. -/
theorem stepKeepsInvariant : Obligations.StepKeepsInvariant := fun _ _ hs h => step_inv hs h

/-- Settles O57: the lanes and the buffer are part of the invariant, which holds in every reachable state. -/
theorem stateIsTLanesInEveryRun : Obligations.StateIsTLanesInEveryRun := by
  intro c s hs hl
  have hi : InstanceOk s := hs.inv.live hl
  obtain ⟨hlen, hlanes⟩ := hi.lanes
  obtain ⟨hslots, hvalues⟩ := hi.buffer
  rw [hs.cfg_eq] at hlen hlanes hslots hvalues
  exact ⟨hlen, hlanes, hslots, fun v hv => hvalues _ hv v rfl⟩

/-- Settles O58: no step writes CFG, and neither does the host. -/
theorem configurationNeverChanges : Obligations.ConfigurationNeverChanges :=
  ⟨fun _ _ h => step_cfg h, fun _ _ hs => hs.cfg_eq⟩

/-! ### Every step ends (R117, R142) -/

/-- Under the invariant every command answers a next state: it is refused, faults, or completes. -/
theorem exec_ends (hs : Inv s) (i : Instr) : ∃ t, exec i s = .next t := by
  by_cases hi : i = .status
  · exact ⟨_, hi ▸ exec_status s⟩
  cases hf : s.fault with
  | true => exact ⟨_, exec_faulted hf hi⟩
  | false =>
    cases hc : firstFault (checksOf s i) with
    | some code => exact ⟨_, exec_raises hf hc⟩
    | none =>
      obtain ⟨t, ht, -⟩ := exec_completes (fun hl => (hs.live hl).rate_pos) hf hc
      exact ⟨t, ht⟩

theorem step_ends (hs : Inv s) (ha : configAdmitted s.cfg = true) : ∃ t, step s = .next t := by
  cases hr : s.rst with
  | true => exact ⟨_, step_of_reset hr⟩
  | false =>
    cases hw : receive s.cfg s.rx with
    | waiting => exact ⟨_, step_of_waiting hr ha hw⟩
    | rejected opc e rest => exact ⟨_, step_of_rejected hr ha hw⟩
    | command i rest =>
      rw [step_of_command hr ha hw]
      exact exec_ends (hs.withRest hs.record _ _ _) i

/-- Settles O59: `step_ends` and `exec_ends`. -/
theorem everyStepEndsWithANextState : Obligations.EveryStepEndsWithANextState :=
  ⟨fun _ hs ha => step_ends hs ha, fun _ i hs => exec_ends hs i⟩

/-! ### What is refused (R7, R8, U2) -/

variable {op : Op} {act : State → Host.Outcome State Fault Refusal} {r : Refusal}

theorem command_ne_refused (h : act s ≠ .refused r) : command op checks act s ≠ .refused r := by
  unfold command
  split
  · simp
  · split
    · simp
    · exact h

theorem squeezeAndRespond_ne_refused (lc : Lifecycle) (s : State) : squeezeAndRespond op lc s ≠ .refused r := by
  unfold squeezeAndRespond
  split <;> simp

/-- Every command has a meaning: none is refused as not modelled, whatever the state. -/
theorem exec_ne_refused (i : Instr) (s : State) : exec i s ≠ .refused r := by
  cases i with
  | status => simp [exec_status]
  | squeeze =>
    rw [exec_squeeze]
    exact command_ne_refused (squeezeAndRespond_ne_refused _ _)
  | hash m =>
    rw [exec_hash]
    exact command_ne_refused (squeezeAndRespond_ne_refused _ _)
  | nop | init | absorb | perm | fold | capiv | padding =>
    simp only [exec_nop, exec_init, exec_absorb, exec_perm, exec_fold, exec_capiv, exec_padding]
    exact command_ne_refused (by simp)

/-- With an admitted CFG no step is refused. -/
theorem step_ne_refused (ha : configAdmitted s.cfg = true) : step s ≠ .refused r := by
  cases hr : s.rst with
  | true => simp [step_of_reset hr]
  | false =>
    cases hw : receive s.cfg s.rx with
    | waiting => simp [step_of_waiting hr ha hw]
    | rejected opc e rest => simp [step_of_rejected hr ha hw]
    | command i rest =>
      rw [step_of_command hr ha hw]
      exact exec_ne_refused i _

theorem step_of_foreign (hr : s.rst = false) (h : ¬ConfigSound s.cfg) : step s = .refused .configOutsideSpec := by
  simp [step, hr, mt configAdmitted_iff.1 h]

/-- Settles O60: the model's test of CFG is `ConfigSound`, and past it nothing is refused. -/
theorem onlyForeignConfigurationIsRefused : Obligations.OnlyForeignConfigurationIsRefused := by
  refine fun s hr => ⟨⟨fun ⟨r, h⟩ hs => ?_, fun h => ⟨_, step_of_foreign hr h⟩⟩, step_of_foreign hr⟩
  exact step_ne_refused (configAdmitted_iff.2 hs) h

end Sys2Proof.Machine
end

section
/-! SUPPORT. What the sponge controller discards and when its loop ends (R84, R88), HASH of a READY instance (R107), and the registers and
the one response of every command (R29, R43, R44, R53, R59). -/

namespace Sys2Proof.Machine

variable {c : Config} {s t : State} {i : Instr} {u v : Nat}

/-! ### HASH (R107) -/

/-- Settles O32: a READY instance under the invariant is fresh, and `sponged` is what HASH leaves of it. -/
theorem hashIsSpongeOverBlocks : Obligations.HashIsSpongeOverBlocks := by
  intro s m hs ha hf hl hm hw y
  have hi : InstanceOk s := hs.live (by simp [hl])
  exact exec_hash_fresh (hi.ready hl) hi.rate_pos hf hl hm fun w h => ⟨lt_word_of_lt_p ha (hw w h), hw w h⟩

/-! ### What ABSORB discards (R28, R88) -/

theorem mem_freshBuffer {o : Option Nat} (h : o ∈ freshBuffer c v) : o = some v ∨ o = none :=
  (List.mem_cons.1 h).imp_right List.eq_of_mem_replicate

theorem countP_freshBuffer : (freshBuffer c v).countP Option.isSome = 1 := by
  simp [freshBuffer, List.countP_replicate]

/-- Settles O27: A3 writes the same buffer whatever stood there, and A2 leaves the round's STATE with a fresh buffer. -/
theorem discardedOutputIsUnobservable : Obligations.DiscardedOutputIsUnobservable := by
  refine ⟨fun s v b hf hl hv hw hm => ?_, fun s t v hf hm hfull h ht => ?_⟩
  · rw [exec_absorb_switch hf hl hv hw hm]
    exact exec_absorb_switch (s := { s with buf := b }) hf hl hv hw hm
  · obtain ⟨hf', -, -⟩ | ⟨-, -, _, -, rfl⟩ | ⟨-, he⟩ := exec_next_cases h
    · simp [hf] at hf'
    · simp at ht
    · cases he with
      | absorb _ _ _ _ =>
        rw [absorbStep_overflow hm (firstUnset_eq_none.2 hfull)]
        exact ⟨rfl, fun o ho => mem_freshBuffer ho, countP_freshBuffer⟩

/-! ### SQUEEZE_STEP's loop (R84) -/

theorem squeezePermutations_take {j : Nat} (hm : s.mode = .squeezing) (h : firstSet s.buf = some (j, u)) :
    squeezePermutations s = 0 := by
  simp [squeezePermutations, squeezeLoopPermutations, squeezeCase, hm, h]

/-- A pass from Absorbing runs the one permutation, and the next pass returns (R81). -/
theorem squeezeLoopPermutations_absorbing (hm : s.mode = .absorbing) (hr : 1 ≤ s.cfg.rate) (n : Nat) :
    squeezeLoopPermutations (n + 2) s = 1 := by
  have hrun : squeezeCase s = .run := by simp [squeezeCase, hm]
  have htake : squeezeCase (squeezeRun s) = .take 0 (lane (duplexLanes s.cfg s.lanes s.buf) 0) := by
    simp [squeezeCase, firstSet_rateBuffer hr]
  simp [squeezeLoopPermutations, hrun, htake]

/-- From an empty Squeezing buffer S3 leads to Absorbing (R83). -/
theorem squeezePermutations_refill (hm : s.mode = .squeezing) (h : firstSet s.buf = none) (hr : 1 ≤ s.cfg.rate) :
    squeezePermutations s = 1 := by
  have hcase : squeezeCase s = .refill := by simp [squeezeCase, hm, h]
  rw [squeezePermutations, squeezeLoopPermutations, hcase]
  exact squeezeLoopPermutations_absorbing (s := { s with mode := .absorbing, buf := unsetBuffer s.cfg }) rfl hr 0

/-- SQUEEZE_STEP returns with STATE unchanged and no permutation, or after one permutation with lane 0 of the new STATE. -/
theorem squeezeStep_permutations (hr : 1 ≤ s.cfg.rate) : ∃ u t, squeezeStep s = some (u, t) ∧
    ((squeezePermutations s = 0 ∧ t.lanes = s.lanes) ∨ (squeezePermutations s = 1 ∧ u = lane t.lanes 0)) := by
  obtain ⟨u, t, hstep, ⟨j, hm, hset, rfl⟩ | ⟨b, hb, hu, rfl⟩⟩ := squeezeStep_cases hr
  · exact ⟨u, _, hstep, .inl ⟨squeezePermutations_take hm hset, rfl⟩⟩
  · refine ⟨u, _, hstep, .inr ⟨?_, hu⟩⟩
    obtain ⟨hm, -⟩ | ⟨hm, hempty, -⟩ := hb
    · exact squeezePermutations_absorbing hm hr
    · exact squeezePermutations_refill hm hempty hr

/-- With RATE = 0 the loop goes round between Absorbing and an empty Squeezing buffer for ever (R84). -/
theorem squeezeLoop_of_rate_zero (hr : s.cfg.rate = 0) (h : s.mode = .absorbing ∨ firstSet s.buf = none) (n : Nat) :
    squeezeLoop n s = none := by
  induction n generalizing s with
  | zero => rfl
  | succ n ih =>
    obtain hm | hm := mode_cases s
    · have hcase : squeezeCase s = .run := by simp [squeezeCase, hm]
      have hempty : firstSet (squeezeRun s).buf = none := by simp [rateBuffer, hr, firstSet]
      rw [squeezeLoop, hcase]
      exact ih hr (.inr hempty)
    · have hempty : firstSet s.buf = none := h.resolve_left (by simp [hm])
      have hcase : squeezeCase s = .refill := by simp [squeezeCase, hm, hempty]
      rw [squeezeLoop, hcase]
      exact ih hr (.inl rfl)

/-- SQUEEZE ends in the model's stop when SQUEEZE_STEP does not return. -/
theorem exec_squeeze_never_ends (hf : s.fault = false) (hl : Usable s) (h : squeezeStep s = none) :
    exec .squeeze s = .fault .squeezeNeverEnds := by
  obtain ⟨hn, hc⟩ := usable_iff.1 hl
  rw [exec_squeeze, command_runs hf (by simp [firstFault, hn, hc]), squeezeAndRespond, h]

/-- Settles O31: `squeezeStep_permutations` for RATE ≥ 1, the endless loop for RATE = 0, and the SHAPE check of every instance. -/
theorem squeezeEndsWithinThreePasses : Obligations.SqueezeEndsWithinThreePasses := by
  refine ⟨fun s hr => ?_, fun s hr hm => ?_, fun c s hs hl => (hs.inv.live hl).rate_pos⟩
  · obtain ⟨u, t, hstep, ⟨hperms, hlanes⟩ | ⟨hperms, hu⟩⟩ := squeezeStep_permutations hr
    · exact ⟨u, t, hstep, by omega, by omega, fun _ => hlanes⟩
    · exact ⟨u, t, hstep, by omega, fun _ => hu, by omega⟩
  · have hloop := squeezeLoop_of_rate_zero hr (.inl hm)
    exact ⟨hloop, fun hf hl => exec_squeeze_never_ends hf hl (hloop 3)⟩

/-! ### The registers of every command (R29, R43) -/

theorem op_eq_status_iff : i.op = .status ↔ i = .status := by cases i <;> simp [Instr.op]

/-- A command that is not INIT, ABSORB, SQUEEZE or HASH only sends a response when it runs. -/
theorem effect_of_pure (h : Effect i s t) (hi : i.op ∉ [Op.init, .absorb, .squeeze, .hash]) :
    ∃ r : Response, t = { s with tx := s.tx ++ [r] } := by
  cases h with
  | nop | status | perm | fold | capiv | padding => exact ⟨_, rfl⟩
  | init | absorb | squeeze | hash => simp [Instr.op] at hi

/-- ABSORB changes STATE in case A2 only (R79). -/
theorem effect_absorb_lanes (h : Effect (.absorb v) s t) (hne : t.lanes ≠ s.lanes) :
    s.mode = .absorbing ∧ ∀ o ∈ s.buf, o ≠ none := by
  cases h with
  | absorb =>
    obtain ⟨_, -, -, ha⟩ | ⟨hm, hfull, -⟩ | ⟨-, ha⟩ := absorbStep_cases v s
    · simp [ha] at hne
    · exact ⟨hm, firstUnset_eq_none.1 hfull⟩
    · simp [ha] at hne

/-- A command that is refused or raises a fault keeps STATE, BUF, MODE and LC, and so does a pure one; any other runs without a fault. -/
theorem exec_registers (h : exec i s = .next t) :
    (t.lanes = s.lanes ∧ t.buf = s.buf ∧ t.mode = s.mode ∧ t.lc = s.lc) ∨
    (t.fault = false ∧ i.op ∈ [Op.init, .absorb, .squeeze, .hash] ∧ Effect i s t) := by
  obtain ⟨-, -, rfl⟩ | ⟨-, -, _, -, rfl⟩ | ⟨hf, he⟩ := exec_next_cases h
  · exact .inl ⟨rfl, rfl, rfl, rfl⟩
  · exact .inl ⟨rfl, rfl, rfl, rfl⟩
  · by_cases hi : i.op ∈ [Op.init, .absorb, .squeeze, .hash]
    · obtain ⟨-, -, -, hfault, -⟩ := effect_frame he
      have hs : i ≠ .status := by rintro rfl; simp [Instr.op] at hi
      exact .inr ⟨hfault.trans (hf.resolve_right hs), hi, he⟩
    · obtain ⟨r, rfl⟩ := effect_of_pure he hi
      exact .inl ⟨rfl, rfl, rfl, rfl⟩

/-- No command touches CFG, the receive channel or the reset line, and FCODE changes with FAULT only. -/
theorem exec_frame (h : exec i s = .next t) :
    t.cfg = s.cfg ∧ t.rx = s.rx ∧ t.rst = s.rst ∧ (t.fault = s.fault → t.fcode = s.fcode) := by
  obtain ⟨-, -, rfl⟩ | ⟨hf, -, _, -, rfl⟩ | ⟨-, he⟩ := exec_next_cases h
  · exact ⟨rfl, rfl, rfl, fun _ => rfl⟩
  · exact ⟨rfl, rfl, rfl, fun ht => by simp [hf] at ht⟩
  · obtain ⟨hcfg, hrx, hrst, -, hfcode, -⟩ := effect_frame he
    exact ⟨hcfg, hrx, hrst, fun _ => hfcode⟩

/-- A pure command that raises no fault only sends a response. -/
theorem exec_pure (h : exec i s = .next t) (hi : i.op ∉ [Op.init, .absorb, .squeeze, .hash]) (hfault : t.fault = s.fault) :
    ∃ r : Response, t = { s with tx := s.tx ++ [r] } := by
  obtain ⟨-, -, rfl⟩ | ⟨hf, -, _, -, rfl⟩ | ⟨-, he⟩ := exec_next_cases h
  · exact ⟨_, rfl⟩
  · simp [hf] at hfault
  · exact effect_of_pure he hi

theorem not_mem_of_pure {o : Op} (h : o ∈ [Op.nop, .status, .perm, .fold, .capiv, .padding]) :
    o ∉ [Op.init, .absorb, .squeeze, .hash] := by
  cases o <;> simp at h ⊢

/-- Settles O37: the frame of an outcome, the registers an effect writes, and case A2 of ABSORB. -/
theorem commandsTouchOnlyTheirRegisters : Obligations.CommandsTouchOnlyTheirRegisters := by
  intro s t i h
  obtain ⟨hcfg, hrx, hrst, hfcode⟩ := exec_frame h
  refine ⟨hcfg, hrx, hrst, hfcode, fun hne => ?_, fun hi hne => ?_, fun hi hfault => exec_pure h (not_mem_of_pure hi) hfault⟩
  · obtain ⟨hlanes, hbuf, hmode, hlc⟩ | ⟨hfault, hi, -⟩ := exec_registers h
    · simp [hlanes, hbuf, hmode, hlc] at hne
    · exact ⟨hfault, hi⟩
  · obtain ⟨hlanes, -⟩ | ⟨-, -, he⟩ := exec_registers h
    · exact absurd hlanes hne
    · cases i with
      | absorb v => exact effect_absorb_lanes he hne
      | nop | status | init | squeeze | hash | perm | fold | capiv | padding => cases hi

/-! ### The response of every command (R53, R58, R59) -/

/-- A command that runs sends one OK response with the opcode map's number of words. -/
theorem effect_responds (h : Effect i s t) :
    ∃ ws, t.tx = s.tx ++ [⟨i.op.code, .ok, s.fcode, ws⟩] ∧ ws.length = resultCount s.cfg i.op := by
  cases h with
  | nop | status | init | capiv => exact ⟨_, rfl, rfl⟩
  | absorb _ v =>
    obtain ⟨_, _, hv⟩ := absorbStep_frame v s
    exact ⟨[], by simp [hv, Instr.op], rfl⟩
  | squeeze _ s' u _ hq =>
    obtain ⟨_, _, rfl⟩ := squeezeLoop_frame _ _ hq
    exact ⟨[u], rfl, rfl⟩
  | hash _ s' m u _ _ _ hq =>
    obtain ⟨_, _, rfl⟩ := squeezeLoop_frame _ _ hq
    obtain ⟨_, _, _, hm⟩ := absorbAll_frame m s
    exact ⟨[u], by simp [hm, Instr.op], rfl⟩
  | perm _ x hlen => exact ⟨_, rfl, permute_length hlen⟩
  | fold => exact ⟨_, rfl, fold_length⟩
  | padding => exact ⟨_, rfl, by simp [bufferValues_pad, Instr.op, resultCount]⟩

/-- Settles O52: a refusal and a fault send a response without words, and an effect an OK response. -/
theorem everyCommandGetsOneResponse : Obligations.EveryCommandGetsOneResponse := by
  refine ⟨fun s t i h => ?_, fun s opc e => ?_⟩
  · obtain ⟨hf, hi, rfl⟩ | ⟨hf, hi, code, -, rfl⟩ | ⟨hf, he⟩ := exec_next_cases h
    · have hop : i.op ≠ .status := mt op_eq_status_iff.1 hi
      exact ⟨_, rfl, rfl, rfl, by simp, by simp, by simp [hf, hop], by simp [hf]⟩
    · exact ⟨_, rfl, rfl, rfl, by simp, by simp, by simp [hf], by simp [hf]⟩
    · obtain ⟨-, -, -, hfault, hfcode, -⟩ := effect_frame he
      obtain ⟨ws, htx, hlen⟩ := effect_responds he
      have hop : s.fault = true → i.op = .status := fun hs => op_eq_status_iff.2 (hf.resolve_left (by simp [hs]))
      exact ⟨_, htx, rfl, hfcode.symm, by simp, fun _ => hlen, by simpa using hop, by simp [hfault]⟩
  · obtain ⟨hf, hj⟩ | ⟨hf, hj, -⟩ := rejectFrame_cases (s := s) opc e
    · exact ⟨_, by rw [hj]; rfl, rfl, by rw [hj]; rfl, rfl, by simp [hf]⟩
    · exact ⟨_, by rw [hj]; rfl, rfl, by rw [hj]; rfl, rfl, by simp [hf]⟩

end Sys2Proof.Machine
end
